-- ==== Sys2Proof/Word.lean ====
section
/-! DEFINITION. The three widths of the block (00_scope.md R6, R7): a byte (`W_DATA`, `W_CHK`), the 32-bit CRC word
(`W_CRC`; also a device address or a byte count), and the 16-bit port operation word. -/

namespace Sys2Proof

/-- `u8` of 00_scope.md R7. -/
abbrev Byte := BitVec 8

/-- `u32` of 00_scope.md R7. -/
abbrev Word := BitVec 32

/-- A port operation word (30_encoding.md R61). -/
abbrev PortWord := BitVec 16

end Sys2Proof
end

