-- ==== Sys2Proof/Config.lean ====
section
/-! DEFINITION. What is fixed for one machine: the parameter record of 00_scope.md R6, the memory map of 20_memory.md R43,
and the values the spec leaves OPEN, as opaque constants of which nothing can be proved but their type. -/

namespace Sys2Proof

/-- The parameters of 00_scope.md R6, as one record. Every definition that depends on one takes the record as an argument. -/
structure Params where
  crcPolyRefl    : Word
  crcInit        : Word
  crcXorOut      : Word
  /-- `OP_CRC32`, the wire opcode. -/
  opCrc32        : Byte
  /-- `CRC_REPEAT`, the read-repeat-count. -/
  crcRepeat      : Word
  /-- `CRC_ACK_RETRIES`: additional reads after the first (R128, 90_conflicts.md C3). -/
  crcAckRetries  : Nat
  /-- `CRC_DATA_RETRIES`: empty reads allowed over one reply (R130). -/
  crcDataRetries : Nat
  /-- `CRC_REPLY_LEN`, in bytes. -/
  crcReplyLen    : Nat
  ackByte        : Byte
  nakByte        : Byte
  flashBase      : Nat
  ramBase        : Nat
  pageSize       : Nat
  deriving DecidableEq, Repr

/-- `ACK_BYTE`, OPEN (R6, D14): any byte. Entry 5. -/
opaque Config.ackByte : Byte

/-- How far `NAK_BYTE` stands from `ACK_BYTE`, less one: any of the 255 distances, so that the pair runs over exactly
the distinct pairs (R6, D14: distinct 8-bit values). Entry 5. -/
opaque Config.nakGap : Fin 255

/-- `NAK_BYTE`, OPEN but for being distinct from `ACK_BYTE` (R6, D14). Entry 5. -/
def Config.nakByte : Byte := Config.ackByte + BitVec.ofNat 8 (Config.nakGap.val + 1)

/-- `CRC_DATA_RETRIES`, OPEN (R6, D16). Entry 5. -/
opaque Config.crcDataRetries : Nat

/-- The transport oracle's answer to the read of this index, where no script gives one (10_state.md R27: free draws).
Entry 3. -/
opaque Config.txReadDraw : Nat → List Byte

/-- The transport oracle's outcome of the write of this index, where no script gives one (10_state.md R27). Entry 3. -/
opaque Config.txWriteDraw : Nat → Bool

/-- What a byte of device memory holds that nothing has written: a free value at each address (10_state.md R28 gives every byte
a value and no rule says which). Entry 12. -/
opaque Config.unwrittenByte : Nat → Byte

/-- The machine's parameters: the stated values of 00_scope.md R6 and the OPEN ones. The three CRC constants are the
spec's decision D1, which it marks as general knowledge: a statement about a concrete CRC value rests on D1 (entry 26). -/
def Config.params : Params where
  crcPolyRefl    := 0xEDB88320
  crcInit        := 0xFFFFFFFF
  crcXorOut      := 0xFFFFFFFF
  opCrc32        := 0x27
  crcRepeat      := 0
  crcAckRetries  := 5
  crcDataRetries := Config.crcDataRetries
  crcReplyLen    := 4
  ackByte        := Config.ackByte
  nakByte        := Config.nakByte
  flashBase      := 0x00000000
  ramBase        := 0x20000000
  pageSize       := 4096

/-- A range of device memory given by its first and its last address, both inside it. -/
structure AddressRange where
  first : Nat
  last  : Nat
  deriving DecidableEq, Repr

/-- The bootloader's work memory (20_memory.md R43). CRC32.DEV does not exclude it (R126). -/
def Config.bootWork : AddressRange := ⟨0x20000000, 0x2000016F⟩

/-- The bootloader's stack (20_memory.md R43). CRC32.DEV does not exclude it (R126). -/
def Config.bootStack : AddressRange := ⟨0x20000FC0, 0x20000FFF⟩

/-- Where the bootloader-lock byte stands within the final flash erase page (20_memory.md R43). -/
def Config.lockOffset : Nat := 0xFDB

/-- The bootloader-lock byte's enabled value (20_memory.md R43). -/
def Config.lockEnabled : Byte := 0xC5

/-- The largest flash size that the source's derivation gives (10_state.md R26). -/
def Config.maxFlashSize : Nat := 0xFF000

end Sys2Proof
end

