-- ==== Sys2Proof/Machine/Operands.lean ====
section
/-! DEFINITION. Operand assembly (30_encoding.md R68), marshalling (00_scope.md R9), the check-byte arithmetic
(41_checksum.md R100, R105, R106) and the packets built from them (30_encoding.md R63 to R65). -/

namespace Sys2Proof.Machine

/-- `op = w[15:8]` of a port word (30_encoding.md R61). -/
def opField (w : PortWord) : Byte := w.extractLsb' 8 8

/-- `d = w[7:0]` of a port word, not extended or scaled (30_encoding.md R61, R68). -/
def byteField (w : PortWord) : Byte := w.extractLsb' 0 8

/-- The port word with these two fields (30_encoding.md R61). -/
def portWord (op d : Byte) : PortWord := BitVec.ofNat 16 (op.toNat * 2 ^ 8 + d.toNat)

/-- `be32` of 00_scope.md R9. -/
def be32 (v : Word) : List Byte :=
  [v.extractLsb' 24 8, v.extractLsb' 16 8, v.extractLsb' 8 8, v.extractLsb' 0 8]

/-- `from_be32` of 00_scope.md R9: the first byte is bits 31..24. It is defined there for four bytes only, and every
caller passes four; on any other list it answers 0, which no rule uses. -/
def fromBe32 : List Byte → Word
  | [b0, b1, b2, b3] => BitVec.ofNat 32 (b0.toNat * 2 ^ 24 + b1.toNat * 2 ^ 16 + b2.toNat * 2 ^ 8 + b3.toNat)
  | _ => 0

/-- `dsum` of 41_checksum.md R106: the sum of the bytes modulo 256. -/
def dsum (data : List Byte) : Byte := data.foldl (· + ·) 0

/-- `checksum` of 41_checksum.md R105: the opcode and the payload summed modulo 256. -/
def checksum (opc : Byte) (payload : List Byte) : Byte := payload.foldl (· + ·) opc

/-- A command packet (30_encoding.md R63): `[LEN, CKS, OPC] ++ PAYLOAD`, with `LEN = 3 + len(PAYLOAD)`. -/
def commandPacket (opc : Byte) (payload : List Byte) : List Byte :=
  BitVec.ofNat 8 (3 + payload.length) :: checksum opc payload :: opc :: payload

/-- The payload of the CRC32 command: address, byte count, read-repeat-count (30_encoding.md R64). -/
def crc32Payload (p : Params) (start count : Word) : List Byte :=
  be32 start ++ be32 count ++ be32 p.crcRepeat

/-- The 15-byte CRC32 command packet (30_encoding.md R64). -/
def crc32Packet (p : Params) (start count : Word) : List Byte :=
  commandPacket p.opCrc32 (crc32Payload p start count)

/-- A reply data packet (30_encoding.md R65): `[RLEN, RCKS] ++ DATA`, with `RLEN = 2 + len(DATA)`. -/
def replyPacket (data : List Byte) : List Byte :=
  BitVec.ofNat 8 (2 + data.length) :: dsum data :: data

end Sys2Proof.Machine
end

