-- ==== Sys2Proof/Syntax.lean ====
section
/-! DEFINITION. The instructions, one constructor per row of spec/opcode_table.json, and the forms in which the host hands
an operation to the block (10_state.md R31, 30_encoding.md R60). -/

namespace Sys2Proof

/-- One constructor per row of spec/opcode_table.json. A `wire…` constructor is a command packet of another layer
(30_encoding.md R69), with its length byte, its check byte and its payload as handed over. -/
inductive Instr where
  /-- CRC.INIT, 40_crc32.md R81. -/
  | crcInit
  /-- CRC.BYTE, 40_crc32.md R82. -/
  | crcByte (d : Byte)
  /-- CRC.READ, 40_crc32.md R83. -/
  | crcRead
  /-- CHK.INIT, 41_checksum.md R101. -/
  | chkInit
  /-- CHK.BYTE, 41_checksum.md R102. -/
  | chkByte (d : Byte)
  /-- CHK.READ, 41_checksum.md R103. -/
  | chkRead
  /-- CRC32.DEV, 42_crc32_command.md R121. -/
  | crc32Dev (start count : Word)
  /-- ping, 0x20. -/
  | wirePing (len cks : Byte) (payload : List Byte)
  /-- download, 0x21. -/
  | wireDownload (len cks : Byte) (payload : List Byte)
  /-- get-status, 0x23. -/
  | wireGetStatus (len cks : Byte) (payload : List Byte)
  /-- send-data, 0x24. -/
  | wireSendData (len cks : Byte) (payload : List Byte)
  /-- reset, 0x25. -/
  | wireReset (len cks : Byte) (payload : List Byte)
  /-- sector-erase, 0x26. -/
  | wireSectorErase (len cks : Byte) (payload : List Byte)
  /-- get-chip-id, 0x28. -/
  | wireGetChipId (len cks : Byte) (payload : List Byte)
  /-- memory-read, 0x2A (the Rev2 value). -/
  | wireMemoryRead (len cks : Byte) (payload : List Byte)
  /-- memory-write, 0x2B (the Rev2 value). -/
  | wireMemoryWrite (len cks : Byte) (payload : List Byte)
  /-- bank-erase, 0x2C (the Rev2 value). -/
  | wireBankErase (len cks : Byte) (payload : List Byte)
  /-- set-CCFG, 0x2D (the Rev2 value). -/
  | wireSetCcfg (len cks : Byte) (payload : List Byte)
  /-- The pseudo-instruction CRC32, 30_encoding.md R72 and 40_crc32.md R85. -/
  | crc32Pseudo (bytes : List Byte)
  /-- The pseudo-instruction CHECKSUM, 30_encoding.md R72 and 41_checksum.md R105. -/
  | checksumPseudo (opc : Byte) (bytes : List Byte)
  deriving DecidableEq, Repr

/-- An operation as the host hands it over: a group of port words (one word, or the expansion of one
pseudo-instruction, 30_encoding.md R72), or one wire packet (30_encoding.md R63). Entry 16. -/
inductive Issue where
  | port (words : List PortWord)
  | packet (bytes : List Byte)
  deriving DecidableEq, Repr

/-- Why an operation handed over is none of the instructions. -/
inductive DecodeError where
  /-- A reserved port word (30_encoding.md R62): the step raises `UnsupportedFunction`. -/
  | reserved (w : PortWord)
  /-- A wire packet whose opcode the source does not list (30_encoding.md R70). -/
  | wireOpcode (opc : Byte)
  /-- A packet with opcode 0x27 that is not a CRC32 command packet of 30_encoding.md R64. Entry 15. -/
  | badCrc32Packet
  /-- A packet too short to hold an opcode byte (30_encoding.md R63). Entry 15. -/
  | truncatedPacket
  /-- A group of port words that is neither one word nor an expansion of 30_encoding.md R72. Entry 16. -/
  | notOneOperation
  deriving DecidableEq, Repr

/-- What the decoder answers. -/
inductive Decoded where
  | instr (i : Instr)
  | rejected (e : DecodeError)
  deriving DecidableEq, Repr

end Sys2Proof
end

