-- ==== Sys2Proof/Machine/State.lean ====
section
/-! DEFINITION. The state of the block, of the session, transport and device it deals with, and of the queue of what is
still to come, all as plain data; the error information of 60_exceptions.md R150; why a step can stop; the state after
reset (70_reset_and_hazards.md R170, 10_state.md R33). -/

namespace Sys2Proof.Machine

/-! ### Registers and results -/

/-- A register of type `u<w> ∪ {unset}` (10_state.md R21, R22). `unset` is the spec's own value, and no number (R23). -/
inductive Reg (w : Nat) where
  | unset
  | val (v : BitVec w)
  deriving DecidableEq, Repr

/-- The error kinds of 60_exceptions.md R150. -/
inductive ErrKind where
  | portError | argumentError | timeoutError | protocolError | allocationError | unsupportedFunction | unsetState
  deriving DecidableEq, Repr

/-- The reason of an error: one for each place in the spec's pseudocode that raises one. -/
inductive Reason where
  /-- R121 step 1. -/
  | transportNotOpen
  /-- R121 step 1. -/
  | linkNotActive
  /-- R121 step 2. -/
  | emptyRange
  /-- R121 step 2. -/
  | rangeOutside
  /-- R121 step 3. -/
  | commandWrite
  /-- R121 step 4. -/
  | noAckNak
  /-- R121 step 4. -/
  | deviceNaked
  /-- R121 step 5. -/
  | shortHeader
  /-- R121 step 5. -/
  | lengthBelowTwo
  /-- R121 step 5. -/
  | shortData
  /-- R121 step 5. -/
  | checkMismatch
  /-- R121 step 5. -/
  | notFourBytes
  /-- R121 step 6. -/
  | ackWrite
  /-- 30_encoding.md R62. -/
  | reservedWord
  /-- 40_crc32.md R82. -/
  | crcByteBeforeInit
  /-- 40_crc32.md R83. -/
  | crcReadBeforeInit
  /-- 41_checksum.md R102. -/
  | chkByteBeforeInit
  /-- 41_checksum.md R103. -/
  | chkReadBeforeInit
  deriving DecidableEq, Repr

/-- The operations that raise `UnsetState` (60_exceptions.md R150, extra info "the mnemonic"). -/
inductive UnsetOp where
  | crcByte | crcRead | chkByte | chkRead
  deriving DecidableEq, Repr

/-- The extra info of an error (60_exceptions.md R150, last column). -/
inductive ErrExtra where
  | none
  | range (start count : Nat)
  | attempts (used : Nat)
  | replyBytes (rx : List Byte)
  | portWord (w : PortWord)
  | mnemonic (op : UnsetOp)
  deriving DecidableEq, Repr

/-- The recorded info of an error (60_exceptions.md R150). Its kind and its code are functions of the reason
(Machine/Ops.lean). -/
structure ErrInfo where
  reason : Reason
  extra  : ErrExtra
  deriving DecidableEq, Repr

/-- What VERIFY answers when no error ends it (42_crc32_command.md R139). -/
inductive Verdict where
  | pass | mismatch
  deriving DecidableEq, Repr

/-- The value of an `Ok` (00_scope.md R11). -/
inductive Value where
  | unit
  | u8 (v : Byte)
  | u32 (v : Word)
  | verdict (v : Verdict)
  deriving DecidableEq, Repr

/-- The outcome of an operation (00_scope.md R11). -/
inductive OpResult where
  | ok (v : Value)
  | err (e : ErrInfo)
  deriving DecidableEq, Repr

/-! ### The command sequencer -/

/-- `phase` of 10_state.md R29. -/
inductive Phase where
  | done | awaitingResponse
  deriving DecidableEq, Repr

/-- `sub` of 10_state.md R29. -/
inductive Sub where
  | ack | data
  deriving DecidableEq, Repr

/-- The sequencer's state (10_state.md R29), with the local `out` of `RecvExact` (42_crc32_command.md R130). -/
structure Seq where
  phase    : Phase
  sub      : Sub
  attempts : Nat
  rx       : List Byte
  out      : List Byte
  deriving DecidableEq, Repr

/-! ### Session, transport, device -/

/-- The device's hardware generation (10_state.md R26). -/
inductive Revision where
  | rev1 | rev2 | unknown
  deriving DecidableEq, Repr

/-- The session fields that the sequencer reads and never writes (10_state.md R26). -/
structure Session where
  portOpen   : Bool
  linkActive : Bool
  flashSize  : Nat
  ramSize    : Nat
  revision   : Revision
  deriving DecidableEq, Repr

/-- One `TxWrite`: the bytes given to the transport, and whether it accepted them all (10_state.md R27). Entry 21. -/
structure WriteRecord where
  bytes    : List Byte
  accepted : Bool
  deriving DecidableEq, Repr

/-- The transport (10_state.md R27): the answers it is going to give to the coming reads, the outcomes of the coming
writes, how many reads were made, and every write made, oldest first. Entry 3. -/
structure Link where
  reads  : List (List Byte)
  writes : List Bool
  nReads : Nat
  sent   : List WriteRecord
  deriving DecidableEq, Repr

/-- Device memory (10_state.md R28): the bytes that something has written, by address, strictly rising. A byte not listed holds
the free value `Config.unwrittenByte` of its address (entry 12). -/
abbrev Memory := List Host.Cell

/-! ### What is still to come -/

/-- A change of the session fields by another layer (10_state.md R26; 70_reset_and_hazards.md R171, R173). -/
inductive SessionEvent where
  /-- The transport was opened or closed. -/
  | portOpen (b : Bool)
  /-- The link became bootloader-active or, by the device's `reset()`, ceased to be (R171). -/
  | linkActive (b : Bool)
  /-- The word that `read_flash_size` read: the size is its low byte times the erase page size (R26). -/
  | flashSizeWord (v : Word)
  /-- The RAM size in bytes, decoded by another layer (R26; 93_implementation_defined.md U18). -/
  | ramSize (n : Nat)
  /-- The device revision (R26). -/
  | revision (r : Revision)
  deriving DecidableEq, Repr

/-- One input of the closed machine. Entry 1. -/
inductive HostInput where
  /-- The host issues an operation (10_state.md R24). -/
  | issue (x : Issue)
  /-- The host asks for VERIFY (42_crc32_command.md R139). -/
  | verify (img : List Byte) (start : Word)
  /-- Another layer changes a session field (10_state.md R26). -/
  | session (e : SessionEvent)
  /-- A command of another layer completed and left these bytes in device memory from this address on (20_memory.md R48).
  Entry 13. -/
  | deviceWrite (start : Word) (data : List Byte)
  /-- A session starts: the block's reset (70_reset_and_hazards.md R170). Entry 10. -/
  | sessionStart
  deriving DecidableEq, Repr

/-! ### The state -/

/-- The whole state. INVENTORY.md lists every field with the rule that names it. -/
structure State where
  /-- `ACC` (10_state.md R21). -/
  acc      : Reg 32
  /-- `CHK` (10_state.md R22). -/
  chk      : Reg 8
  /-- The command sequencer (10_state.md R29). -/
  seq      : Seq
  /-- The session fields (10_state.md R26). -/
  session  : Session
  /-- The transport (10_state.md R27). -/
  link     : Link
  /-- Device memory (10_state.md R28). -/
  dmem     : Memory
  /-- What comes next, oldest first (10_state.md R24). -/
  pending  : List HostInput
  /-- The outcome that the last operation returned (10_state.md R25). -/
  result   : Option OpResult
  /-- The fault log, oldest first (60_exceptions.md R151). -/
  faultLog : List ErrInfo
  deriving DecidableEq, Repr

/-! ### Why a step can stop

None of these is an error of the block: those are results (00_scope.md R11, 60_exceptions.md R154). -/

/-- A step meets an input from another layer that lies outside what the spec describes. -/
inductive Fault where
  /-- Raised by the step for a `deviceWrite` that would leave bytes past address 0xFFFFFFFF, where there is no device memory:
  "Device memory: 32-bit byte addresses" (10_state.md R31). Safe: the machine stops. Entry 13. -/
  | deviceAddressOutside (start count : Nat)
  /-- Raised by the step for a RAM size that would carry RAM past the 32-bit address space (10_state.md R31, 20_memory.md
  R43). Safe: the machine stops. Entry 20. -/
  | ramSizeOutside (n : Nat)
  deriving DecidableEq, Repr

/-- The machine has no meaning for what it was handed. -/
inductive Refusal where
  /-- An instruction without a meaning yet. No arm of `exec` answers with it. Safe. -/
  | notModelled (mnemonic : String)
  /-- A wire packet whose opcode is not 0x27 (30_encoding.md R70: "it refuses with a refusal naming the opcode"). Raised by
  the eleven `wire…` meanings, and by the step for an opcode the source does not list. Safe. -/
  | wireOpcode (opc : Byte)
  /-- A packet with opcode 0x27 that is not that of 30_encoding.md R64: another length, or a nonzero read-repeat-count
  (93_implementation_defined.md U12). Raised by the step. Safe. Entry 15. -/
  | badCrc32Packet
  /-- A packet with no opcode byte. Raised by the step. Safe. Entry 15. -/
  | truncatedPacket
  /-- A group of port words that is neither one word nor an expansion. Raised by the step. Safe. Entry 16. -/
  | notOneOperation
  deriving DecidableEq, Repr

/-! ### Reset -/

/-- The session fields before any other layer has set one: sizes 0 (10_state.md R26, D31). The rest is entry 10. -/
def Session.reset : Session where
  portOpen   := false
  linkActive := false
  flashSize  := 0
  ramSize    := 0
  revision   := .unknown

/-- The sequencer after reset: `phase` is `Done` (10_state.md R33). The rest is unspecified there: entry 9. -/
def Seq.reset : Seq where
  phase    := .done
  sub      := .ack
  attempts := 0
  rx       := []
  out      := []

/-- The transport with no answer scripted and nothing sent. Entries 3 and 11. -/
def Link.reset : Link where
  reads  := []
  writes := []
  nReads := 0
  sent   := []

/-- The machine right after reset (70_reset_and_hazards.md R170, 10_state.md R33). -/
def State.reset : State where
  acc      := .unset
  chk      := .unset
  seq      := Seq.reset
  session  := Session.reset
  link     := Link.reset
  dmem     := []
  pending  := []
  result   := none
  faultLog := []

end Sys2Proof.Machine
end

