-- ==== Sys2Proof/Machine/Ops.lean ====
section
/-! DEFINITION. The shared operations: named updates of the state; ending an operation with a value or with an error, which is
all the "exception entry" this block has (60_exceptions.md R154: an error does not trap); device memory; the transport. -/

namespace Sys2Proof.Machine

/-! ### Named updates -/

/-- `ACC <- v`. -/
def State.setAcc (s : State) (v : Word) : State := { s with acc := .val v }

/-- `CHK <- v`. -/
def State.setChk (s : State) (v : Byte) : State := { s with chk := .val v }

/-- Replace the sequencer's state. -/
def State.setSeq (s : State) (q : Seq) : State := { s with seq := q }

/-- Replace the transport. -/
def State.setLink (s : State) (l : Link) : State := { s with link := l }

/-- Replace the session fields. -/
def State.setSession (s : State) (x : Session) : State := { s with session := x }

/-- Replace device memory. -/
def State.setDmem (s : State) (m : Memory) : State := { s with dmem := m }

/-- Replace the queue of what comes next. -/
def State.setPending (s : State) (q : List HostInput) : State := { s with pending := q }

/-! ### Errors -/

/-- The kind of an error, by its reason (60_exceptions.md R150). No reason has the kind `AllocationError`, which nothing in
this block raises. -/
def Reason.kind : Reason → ErrKind
  | .transportNotOpen => .portError
  | .linkNotActive => .portError
  | .emptyRange => .argumentError
  | .rangeOutside => .argumentError
  | .commandWrite => .portError
  | .noAckNak => .timeoutError
  | .deviceNaked => .protocolError
  | .shortHeader => .protocolError
  | .lengthBelowTwo => .protocolError
  | .shortData => .protocolError
  | .checkMismatch => .protocolError
  | .notFourBytes => .protocolError
  | .ackWrite => .portError
  | .reservedWord => .unsupportedFunction
  | .crcByteBeforeInit => .unsetState
  | .crcReadBeforeInit => .unsetState
  | .chkByteBeforeInit => .unsetState
  | .chkReadBeforeInit => .unsetState

/-- The `why` string of the spec's pseudocode. The one of `reservedWord` is the model's (entry 17). -/
def Reason.text : Reason → String
  | .transportNotOpen => "transport not open"
  | .linkNotActive => "link not bootloader-active"
  | .emptyRange => "empty CRC range"
  | .rangeOutside => "range not in flash or RAM"
  | .commandWrite => "command write incomplete"
  | .noAckNak => "no ACK/NAK"
  | .deviceNaked => "device NAKed CRC32"
  | .shortHeader => "short reply header"
  | .lengthBelowTwo => "reply length byte below 2"
  | .shortData => "short reply data"
  | .checkMismatch => "reply checksum mismatch"
  | .notFourBytes => "reply is not 4 bytes"
  | .ackWrite => "ACK write incomplete"
  | .reservedWord => "reserved port word"
  | .crcByteBeforeInit => "CRC.BYTE before CRC.INIT"
  | .crcReadBeforeInit => "CRC.READ before CRC.INIT"
  | .chkByteBeforeInit => "CHK.BYTE before CHK.INIT"
  | .chkReadBeforeInit => "CHK.READ before CHK.INIT"

/-- The mnemonic that R150 records with `UnsetState`. -/
def UnsetOp.mnemonic : UnsetOp → String
  | .crcByte => "CRC.BYTE"
  | .crcRead => "CRC.READ"
  | .chkByte => "CHK.BYTE"
  | .chkRead => "CHK.READ"

/-- The numeric code of a kind (60_exceptions.md R150). -/
def ErrKind.code : ErrKind → Nat
  | .portError => 1
  | .argumentError => 2
  | .timeoutError => 3
  | .protocolError => 4
  | .allocationError => 5
  | .unsupportedFunction => 6
  | .unsetState => 7

/-- The kind of a recorded error. -/
def ErrInfo.kind (e : ErrInfo) : ErrKind := e.reason.kind

/-- The code of a recorded error. -/
def ErrInfo.code (e : ErrInfo) : Nat := e.kind.code

/-- Codes 6 and 7 are faults of the port program (60_exceptions.md R151). -/
def ErrInfo.isPortFault (e : ErrInfo) : Bool := e.code == 6 || e.code == 7

/-- End an operation with `Ok(v)` (00_scope.md R11): the value goes back in the result, not in a flag (10_state.md R25). -/
def State.ret (s : State) (v : Value) : State := { s with result := some (.ok v) }

/-- End an operation with an error (00_scope.md R10; 60_exceptions.md R150, R151, R154): `Err` with its info goes back in the
result, and a code 6 or 7 is put at the end of the fault log. No register is written, nothing is saved, control goes
nowhere. That the engine carries on after a code 6 or 7 is entry 6. -/
def State.raise (s : State) (e : ErrInfo) : State :=
  { s with result := some (.err e), faultLog := if e.isPortFault then s.faultLog ++ [e] else s.faultLog }

/-! ### Device memory -/

/-- The byte at an address: what was last written there, or the free value of a byte that nothing has written (10_state.md R28:
every byte has a value). Entry 12. -/
def Memory.read : Memory → Nat → Byte
  | [], a => Config.unwrittenByte a
  | (b, v) :: m, a => if a = b then v else Memory.read m a

/-- The cell `(a, v)` before `m`, unless an unlisted `a` reads as `v` anyway. -/
def Memory.place (a : Nat) (v : Byte) (m : Memory) : Memory := if v = Config.unwrittenByte a then m else (a, v) :: m

/-- Write one byte, keeping the canonical form. -/
def Memory.write : Memory → Nat → Byte → Memory
  | [], a, v => Memory.place a v []
  | (b, u) :: m, a, v =>
    if a < b then Memory.place a v ((b, u) :: m)
    else if a = b then Memory.place a v m
    else (b, u) :: Memory.write m a v

/-- Write bytes at ascending addresses. -/
def Memory.writeBytes : Memory → Nat → List Byte → Memory
  | m, _, [] => m
  | m, a, v :: vs => Memory.writeBytes (m.write a v) (a + 1) vs

/-- The canonical form: addresses strictly rising and within 32 bits (10_state.md R31), and no entry equal to what an unlisted
address reads as. -/
def Memory.wf : Memory → Bool
  | [] => true
  | (a, v) :: m =>
    decide (a < 2 ^ 32) && decide (v ≠ Config.unwrittenByte a) && m.all (fun c => decide (a < c.1)) && Memory.wf m

/-- `MemRead(addr, n)` of 00_scope.md R10: the bytes at `addr` to `addr + n - 1` in ascending address order. Only the device
performs it (20_memory.md R44). -/
def Memory.readRange (m : Memory) (a : Nat) : Nat → List Byte
  | 0 => []
  | n + 1 => m.read a :: m.readRange (a + 1) n

/-! ### Ranges -/

/-- `in_flash` of 42_crc32_command.md R124, in Nat. -/
def inFlash (p : Params) (x : Session) (start count : Nat) : Bool :=
  decide (p.flashBase ≤ start ∧ start + count ≤ p.flashBase + x.flashSize)

/-- `in_ram` of 42_crc32_command.md R124, in Nat. -/
def inRam (p : Params) (x : Session) (start count : Nat) : Bool :=
  decide (p.ramBase ≤ start ∧ start + count ≤ p.ramBase + x.ramSize)

/-! ### Sequencer fields -/

/-- `phase <- x`. -/
def State.setPhase (s : State) (x : Phase) : State := s.setSeq { s.seq with phase := x }

/-- `attempts <- attempts + 1`. -/
def State.countAttempt (s : State) : State := s.setSeq { s.seq with attempts := s.seq.attempts + 1 }

/-- `out <- v`. -/
def State.setOut (s : State) (v : List Byte) : State := s.setSeq { s.seq with out := v }

/-- `rx <- rx ++ out`. -/
def State.keepOut (s : State) : State := s.setSeq { s.seq with rx := s.seq.rx ++ s.seq.out }

/-! ### The transport -/

/-- What the oracle answers to a `TxRead` now: the scripted answer, or the free draw of this read's index. -/
def Link.nextAnswer (l : Link) : List Byte := l.reads.headD (Config.txReadDraw l.nReads)

/-- Whether the oracle accepts a `TxWrite` now: the scripted outcome, or the free draw of this write's index. -/
def Link.nextAccept (l : Link) : Bool := l.writes.headD (Config.txWriteDraw l.sent.length)

/-- `TxRead(n)` of 10_state.md R27: between 0 and `n` bytes, the oracle's choice. Entries 3 and 4. -/
def txRead (n : Nat) (s : State) : List Byte × State :=
  (s.link.nextAnswer.take n,
   s.setLink { s.link with reads := s.link.reads.tail, nReads := s.link.nReads + 1 })

/-- `TxWrite(bytes)` of 10_state.md R27: true is `ok`, false is `fail`. Entries 3 and 21. -/
def txWrite (bytes : List Byte) (s : State) : Bool × State :=
  (s.link.nextAccept,
   s.setLink { s.link with
     writes := s.link.writes.tail
     sent := s.link.sent ++ [⟨bytes, s.link.nextAccept⟩] })

end Sys2Proof.Machine
end

