-- ==== Sys2Proof/Machine/Chk.lean ====
section
/-! DEFINITION. The framing-checksum family: CHK.INIT, CHK.BYTE, CHK.READ and the pseudo-instruction CHECKSUM (41_checksum.md
R101 to R105, 30_encoding.md R72). -/

namespace Sys2Proof.Machine

/-- `CHK <- 0x00; return Ok(())` (41_checksum.md R101). -/
def chkInit (s : State) : State := (s.setChk 0).ret .unit

/-- Add one byte modulo 256, or raise `UnsetState` (41_checksum.md R100, R102). -/
def chkByte (d : Byte) (s : State) : State :=
  match s.chk with
  | .unset => s.raise ⟨.chkByteBeforeInit, .mnemonic .chkByte⟩
  | .val c => (s.setChk (c + d)).ret .unit

/-- Return `CHK` as it is, or raise `UnsetState` (41_checksum.md R103). -/
def chkRead (s : State) : State :=
  match s.chk with
  | .unset => s.raise ⟨.chkReadBeforeInit, .mnemonic .chkRead⟩
  | .val c => s.ret (.u8 c)

/-- One CHK.BYTE for each byte, in order. -/
def chkBytes : List Byte → State → State
  | [], s => s
  | d :: ds, s => chkBytes ds (chkByte d s)

/-- CHK.INIT. -/
def execChkInit (s : State) : Host.Outcome State Fault Refusal := .next (chkInit s)

/-- CHK.BYTE. -/
def execChkByte (d : Byte) (s : State) : Host.Outcome State Fault Refusal := .next (chkByte d s)

/-- CHK.READ. -/
def execChkRead (s : State) : Host.Outcome State Fault Refusal := .next (chkRead s)

/-- CHECKSUM opc, [p0, …]: its expansion CHK.INIT, CHK.BYTE opc, CHK.BYTE p0, …, CHK.READ, run as one operation
(30_encoding.md R72). -/
def execChecksumPseudo (opc : Byte) (bytes : List Byte) (s : State) : Host.Outcome State Fault Refusal :=
  .next (chkRead (chkBytes (opc :: bytes) (chkInit s)))

end Sys2Proof.Machine
end

