-- ==== Sys2Proof/Machine/Datapath.lean ====
section
/-! DEFINITION. The CRC-32 datapath (40_crc32.md R80, R84, R88). Bytes are folded in list order, which is ascending address
order for an image (20_memory.md R42). -/

namespace Sys2Proof.Machine

/-- One pass of the loop of 40_crc32.md R80. -/
def crcShift (p : Params) (acc : Word) : Word :=
  if acc.getLsbD 0 then (acc >>> 1) ^^^ p.crcPolyRefl else acc >>> 1

/-- `n` passes of that loop. -/
def crcShifts (p : Params) : Nat → Word → Word
  | 0, acc => acc
  | n + 1, acc => crcShifts p n (crcShift p acc)

/-- `crcStep` of 40_crc32.md R80: one byte folded in, least significant bit first (20_memory.md R41). -/
def crcStep (p : Params) (acc : Word) (d : Byte) : Word :=
  crcShifts p 8 (acc ^^^ d.setWidth 32)

/-- `fold(crcStep, a, s)` of 40_crc32.md R84. -/
def crcFold (p : Params) (a : Word) : List Byte → Word
  | [] => a
  | b :: t => crcFold p (crcStep p a b) t

/-- `crc32` of 40_crc32.md R84. -/
def crc32 (p : Params) (s : List Byte) : Word :=
  p.crcXorOut ^^^ crcFold p p.crcInit s

/-- `crcStep4` of 40_crc32.md R88: the loop of R80 run four times. -/
def crcStep4 (p : Params) (acc : Word) : Word := crcShifts p 4 acc

/-- The table `T` as 40_crc32.md R88 prints it. -/
def nibbleTable : List Word :=
  [0x00000000, 0x1DB71064, 0x3B6E20C8, 0x26D930AC,
   0x76DC4190, 0x6B6B51F4, 0x4DB26158, 0x5005713C,
   0xEDB88320, 0xF00F9344, 0xD6D6A3E8, 0xCB61B38C,
   0x9B64C2B0, 0x86D3D2D4, 0xA00AE278, 0xBDBDF21C]

/-- One half of `crcStepNibble`: four bits of `x` folded in through the table (40_crc32.md R88). -/
def nibbleHalf (acc x : Word) : Word :=
  (acc >>> 4) ^^^ nibbleTable.getD ((acc ^^^ x).extractLsb' 0 4).toNat 0

/-- `crcStepNibble` of 40_crc32.md R88. -/
def crcStepNibble (acc : Word) (d : Byte) : Word :=
  nibbleHalf (nibbleHalf acc (d.setWidth 32)) ((d >>> 4).setWidth 32)

end Sys2Proof.Machine
end

