-- ==== Sys2Proof/Machine/Crc.lean ====
section
/-! DEFINITION. The CRC family: CRC.INIT, CRC.BYTE, CRC.READ and the pseudo-instruction CRC32 (40_crc32.md R81 to R85,
30_encoding.md R72). The effects are written for every parameter record; the meanings take the machine's. -/

namespace Sys2Proof.Machine

/-- `ACC <- CRC_INIT; return Ok(())` (40_crc32.md R81). -/
def crcInit (p : Params) (s : State) : State := (s.setAcc p.crcInit).ret .unit

/-- Fold one byte in, or raise `UnsetState` (40_crc32.md R82). -/
def crcByte (p : Params) (d : Byte) (s : State) : State :=
  match s.acc with
  | .unset => s.raise ⟨.crcByteBeforeInit, .mnemonic .crcByte⟩
  | .val a => (s.setAcc (crcStep p a d)).ret .unit

/-- Return `ACC xor CRC_XOROUT`, or raise `UnsetState` (40_crc32.md R83). `ACC` stays as it is. -/
def crcRead (p : Params) (s : State) : State :=
  match s.acc with
  | .unset => s.raise ⟨.crcReadBeforeInit, .mnemonic .crcRead⟩
  | .val a => s.ret (.u32 (a ^^^ p.crcXorOut))

/-- One CRC.BYTE for each byte, in order. -/
def crcBytes (p : Params) : List Byte → State → State
  | [], s => s
  | d :: ds, s => crcBytes p ds (crcByte p d s)

/-- CRC.INIT. -/
def execCrcInit (s : State) : Host.Outcome State Fault Refusal := .next (crcInit Config.params s)

/-- CRC.BYTE. -/
def execCrcByte (d : Byte) (s : State) : Host.Outcome State Fault Refusal := .next (crcByte Config.params d s)

/-- CRC.READ. -/
def execCrcRead (s : State) : Host.Outcome State Fault Refusal := .next (crcRead Config.params s)

/-- CRC32 [b0, …]: its expansion CRC.INIT, CRC.BYTE b0, …, CRC.READ, run as one operation (30_encoding.md R72). -/
def execCrc32Pseudo (bytes : List Byte) (s : State) : Host.Outcome State Fault Refusal :=
  .next (crcRead Config.params (crcBytes Config.params bytes (crcInit Config.params s)))

end Sys2Proof.Machine
end

