-- ==== Sys2Proof/Machine/Exchange.lean ====
section
/-! DEFINITION. The CRC32.DEV exchange as 42_crc32_command.md R121 writes it: the preconditions, the command, `RecvAck`,
`RecvExact`, the reply checks in their order, the host ACK. -/

namespace Sys2Proof.Machine

/-- Steps 1 and 2 (42_crc32_command.md R122 to R125), in the order of 60_exceptions.md R153: the error, if one is raised.
`count` is a Nat, so that VERIFY can give the length of any image (entry 19). -/
def precheck (p : Params) (x : Session) (start count : Nat) : Option ErrInfo :=
  if !x.portOpen then some ⟨.transportNotOpen, .none⟩
  else if !x.linkActive then some ⟨.linkNotActive, .none⟩
  else if count = 0 then some ⟨.emptyRange, .range start count⟩
  else if !(inFlash p x start count || inRam p x start count) then some ⟨.rangeOutside, .range start count⟩
  else none

/-- End a CRC32.DEV with an error: `phase` is `Done` again (10_state.md R29, 42_crc32_command.md R136). -/
def failExchange (e : ErrInfo) (s : State) : State := (s.setPhase .done).raise e

/-- `NakFail` of 42_crc32_command.md R121: one NAK byte, its outcome ignored, then `ProtocolError` with the reply bytes
`rx` (R131, 60_exceptions.md R150). -/
def nakFail (p : Params) (why : Reason) (s : State) : State :=
  let s1 := (txWrite [p.nakByte] s).2
  failExchange ⟨why, .replyBytes s1.seq.rx⟩ s1

/-- The device answered NAK to the command: `ProtocolError`, nothing more is sent (42_crc32_command.md R129). -/
def deviceNak (s : State) : State := failExchange ⟨.deviceNaked, .replyBytes s.seq.rx⟩ s

/-- No ACK or NAK within the budget (42_crc32_command.md R128). -/
def ackTimeout (s : State) : State := failExchange ⟨.noAckNak, .attempts s.seq.attempts⟩ s

/-- What `RecvAck` returns (42_crc32_command.md R128). -/
inductive AckAnswer where
  | ack | nak | timeout
  deriving DecidableEq, Repr

/-- `RecvAck` of 42_crc32_command.md R128, with this many attempts left: each reads one byte; a byte that is neither ACK nor
NAK, or none, uses the attempt up. -/
def recvAck (p : Params) : Nat → State → AckAnswer × State
  | 0, s => (.timeout, s)
  | n + 1, s =>
    let r := txRead 1 s.countAttempt
    if r.1 = [p.ackByte] then (.ack, r.2)
    else if r.1 = [p.nakByte] then (.nak, r.2)
    else recvAck p n r.2

/-- The loop of `RecvExact` (42_crc32_command.md R130), collecting into `out` until it holds `n` bytes; false is `short`.
Each pass uses up a missing byte or an attempt, so `recvExact`'s fuel never runs out. -/
def recvLoop (p : Params) (n : Nat) : Nat → State → Bool × State
  | 0, s => (decide (n ≤ s.seq.out.length), s)
  | fuel + 1, s =>
    if n ≤ s.seq.out.length then (true, s)
    else
      let r := txRead (n - s.seq.out.length) s
      if r.1 = [] then
        let s1 := r.2.countAttempt
        if p.crcDataRetries < s1.seq.attempts then (false, s1) else recvLoop p n fuel s1
      else recvLoop p n fuel (r.2.setOut (r.2.seq.out ++ r.1))

/-- `RecvExact(n)` of 42_crc32_command.md R130: exactly `n` bytes, which are then also the end of `rx`; or none, `short`. A
short read leaves `rx` as it was (entry 8). -/
def recvExact (p : Params) (n : Nat) (s : State) : Option (List Byte) × State :=
  let r := recvLoop p n (p.crcDataRetries + 1 - s.seq.attempts + n) (s.setOut [])
  if r.1 then (some r.2.seq.out, r.2.keepOut) else (none, r.2)

/-- Step 6 (42_crc32_command.md R134): the host ACK, then the reply as a big-endian number. -/
def acceptReply (p : Params) (data : List Byte) (s : State) : State :=
  let w := txWrite [p.ackByte] s
  if w.1 then (w.2.setPhase .done).ret (.u32 (fromBe32 data))
  else failExchange ⟨.ackWrite, .none⟩ w.2

/-- The last checks of step 5, the check byte before the length (42_crc32_command.md R132), then step 6. -/
def judgeReply (p : Params) (rcks : Byte) (data : List Byte) (s : State) : State :=
  if dsum data ≠ rcks then nakFail p .checkMismatch s
  else if data.length ≠ p.crcReplyLen then nakFail p .notFourBytes s
  else acceptReply p data s

/-- Step 5 after the header: `RLEN`, the data bytes, the checks (42_crc32_command.md R121, R131, R132). -/
def receiveData (p : Params) (rlen rcks : Byte) (s : State) : State :=
  if rlen.toNat < 2 then nakFail p .lengthBelowTwo s
  else
    let r := recvExact p (rlen.toNat - 2) s
    match r.1 with
    | none => nakFail p .shortData r.2
    | some data => judgeReply p rcks data r.2

/-- `sub <- Data; attempts <- 0` (42_crc32_command.md R121, the start of step 5). -/
def enterData (s : State) : State := s.setSeq { s.seq with sub := .data, attempts := 0, out := [] }

/-- Step 5 (42_crc32_command.md R121). -/
def receiveReply (p : Params) (s : State) : State :=
  let h := recvExact p 2 s
  match h.1 with
  | none => nakFail p .shortHeader h.2
  | some hdr => receiveData p (hdr.getD 0 0) (hdr.getD 1 0) h.2

/-- Step 3 without its write: `phase <- AwaitingResponse; sub <- Ack; attempts <- 0; rx <- []` (42_crc32_command.md R121). -/
def enterExchange (s : State) : State :=
  s.setSeq { phase := .awaitingResponse, sub := .ack, attempts := 0, rx := [], out := [] }

/-- Step 3 (42_crc32_command.md R127): the 15-byte packet in a single `TxWrite`. -/
def sendCommand (p : Params) (start count : Word) (s : State) : Bool × State :=
  txWrite (crc32Packet p start count) (enterExchange s)

/-- Step 4 and what follows it (42_crc32_command.md R121, R128, R129). -/
def awaitAnswer (p : Params) (s : State) : State :=
  let a := recvAck p (p.crcAckRetries + 1) s
  match a.1 with
  | .timeout => ackTimeout a.2
  | .nak => deviceNak a.2
  | .ack => receiveReply p (enterData a.2)

/-- Steps 3 to 6 (42_crc32_command.md R121). -/
def exchange (p : Params) (start count : Word) (s : State) : State :=
  let w := sendCommand p start count s
  if w.1 then awaitAnswer p w.2 else failExchange ⟨.commandWrite, .none⟩ w.2

/-- CRC32.DEV (42_crc32_command.md R121). -/
def crc32Dev (p : Params) (start count : Word) (s : State) : State :=
  match precheck p s.session start.toNat count.toNat with
  | some e => failExchange e s
  | none => exchange p start count s

end Sys2Proof.Machine
end

