-- ==== Sys2Proof/Machine/Device.lean ====
section
/-! DEFINITION. The device command CRC32.DEV (42_crc32_command.md R120, R121), VERIFY over it (R139), and the named assumption
DEVICE_CONFORMS about the device's side of it (R137). -/

namespace Sys2Proof.Machine

/-- CRC32.DEV, one whole exchange (42_crc32_command.md R121, R141). Entry 7. -/
def execCrc32Dev (start count : Word) (s : State) : Host.Outcome State Fault Refusal :=
  .next (crc32Dev Config.params start count s)

/-- What VERIFY makes of the outcome of its CRC32.DEV (42_crc32_command.md R139). -/
def verdictOf (p : Params) (img : List Byte) : OpResult → OpResult
  | .ok (.u32 c) => .ok (.verdict (if c = crc32 p img then .pass else .mismatch))
  | .ok _ => .ok (.verdict .mismatch)
  | .err e => .err e

/-- VERIFY(img, start) (42_crc32_command.md R139). The range check is made on the length itself, so that an image longer
than a u32 can count is refused as a range and its count never wraps (entry 19). -/
def verify (p : Params) (img : List Byte) (start : Word) (s : State) : State :=
  let t := match precheck p s.session start.toNat img.length with
    | some e => failExchange e s
    | none => exchange p start (BitVec.ofNat 32 img.length) s
  { t with result := t.result.map (verdictOf p img) }

/-- The reply that a conforming device gives for these contents (42_crc32_command.md R137): the data packet of
30_encoding.md R65 around the big-endian CRC. -/
def conformingReply (p : Params) (contents : List Byte) : List Byte :=
  replyPacket (be32 (crc32 p contents))

/-- The answers to the host's reads spell one `ACK_BYTE` and then the reply, split in any way, with no more empty reads than
the budgets allow (42_crc32_command.md R137). The reply's header and its data are read by separate `RecvExact`s, so no
answer crosses from one into the other. -/
def SpellsReply (p : Params) (reply : List Byte) (reads : List (List Byte)) : Prop :=
  ∃ (empties : Nat) (hdr dat rest : List (List Byte)),
    reads = List.replicate empties [] ++ [[p.ackByte]] ++ hdr ++ dat ++ rest ∧
    empties ≤ p.crcAckRetries ∧
    hdr.flatten = reply.take 2 ∧
    dat.flatten = reply.drop 2 ∧
    (hdr ++ dat).count [] ≤ p.crcDataRetries

/-- DEVICE_CONFORMS (42_crc32_command.md R137) for one CRC32.DEV: the transport takes the packet, and its answers spell the
ACK and the reply for the bytes that device memory holds in the range. A hypothesis of claims, no part of the step. Entry 24. -/
def DeviceConforms (p : Params) (start count : Word) (s : State) : Prop :=
  s.link.writes.head? = some true ∧
    SpellsReply p (conformingReply p (s.dmem.readRange start.toNat count.toNat)) s.link.reads

end Sys2Proof.Machine
end

