-- ==== Sys2Proof/Machine/Wire.lean ====
section
/-! DEFINITION. The wire commands of other layers (30_encoding.md R69). "A model of this block neither emits nor interprets a
wire packet whose opcode is not `0x27`. Handed one, it refuses with a refusal naming the opcode" (R70; 00_scope.md R5 (b)). -/

namespace Sys2Proof.Machine

/-- ping, 0x20: refused by its opcode (30_encoding.md R70). -/
def execWirePing (_s : State) : Host.Outcome State Fault Refusal := .refused (.wireOpcode 0x20)

/-- download, 0x21: refused by its opcode (30_encoding.md R70). -/
def execWireDownload (_s : State) : Host.Outcome State Fault Refusal := .refused (.wireOpcode 0x21)

/-- get-status, 0x23: refused by its opcode (30_encoding.md R70). -/
def execWireGetStatus (_s : State) : Host.Outcome State Fault Refusal := .refused (.wireOpcode 0x23)

/-- send-data, 0x24: refused by its opcode (30_encoding.md R70). -/
def execWireSendData (_s : State) : Host.Outcome State Fault Refusal := .refused (.wireOpcode 0x24)

/-- reset, 0x25: refused by its opcode (30_encoding.md R70). Its effect on the session reaches the block as an input (10_state.md R26, 70_reset_and_hazards.md R171). -/
def execWireReset (_s : State) : Host.Outcome State Fault Refusal := .refused (.wireOpcode 0x25)

/-- sector-erase, 0x26: refused by its opcode (30_encoding.md R70). -/
def execWireSectorErase (_s : State) : Host.Outcome State Fault Refusal := .refused (.wireOpcode 0x26)

/-- get-chip-id, 0x28: refused by its opcode (30_encoding.md R70). -/
def execWireGetChipId (_s : State) : Host.Outcome State Fault Refusal := .refused (.wireOpcode 0x28)

/-- memory-read, 0x2A: refused by its opcode (30_encoding.md R70). -/
def execWireMemoryRead (_s : State) : Host.Outcome State Fault Refusal := .refused (.wireOpcode 0x2A)

/-- memory-write, 0x2B: refused by its opcode (30_encoding.md R70). -/
def execWireMemoryWrite (_s : State) : Host.Outcome State Fault Refusal := .refused (.wireOpcode 0x2B)

/-- bank-erase, 0x2C: refused by its opcode (30_encoding.md R70). -/
def execWireBankErase (_s : State) : Host.Outcome State Fault Refusal := .refused (.wireOpcode 0x2C)

/-- set-CCFG, 0x2D: refused by its opcode (30_encoding.md R70). -/
def execWireSetCcfg (_s : State) : Host.Outcome State Fault Refusal := .refused (.wireOpcode 0x2D)

end Sys2Proof.Machine
end

