-- ==== Sys2Proof/Machine/Dispatch.lean ====
section
/-! DEFINITION. The dispatch: one arm per constructor of Instr, one direct call of its meaning. -/

namespace Sys2Proof.Machine

def exec (i : Instr) (s : State) : Host.Outcome State Fault Refusal :=
  match i with
  | .crcInit => Sys2Proof.Machine.execCrcInit s
  | .crcByte d => Sys2Proof.Machine.execCrcByte d s
  | .crcRead => Sys2Proof.Machine.execCrcRead s
  | .chkInit => Sys2Proof.Machine.execChkInit s
  | .chkByte d => Sys2Proof.Machine.execChkByte d s
  | .chkRead => Sys2Proof.Machine.execChkRead s
  | .crc32Dev start count => Sys2Proof.Machine.execCrc32Dev start count s
  | .wirePing _ _ _ => Sys2Proof.Machine.execWirePing s
  | .wireDownload _ _ _ => Sys2Proof.Machine.execWireDownload s
  | .wireGetStatus _ _ _ => Sys2Proof.Machine.execWireGetStatus s
  | .wireSendData _ _ _ => Sys2Proof.Machine.execWireSendData s
  | .wireReset _ _ _ => Sys2Proof.Machine.execWireReset s
  | .wireSectorErase _ _ _ => Sys2Proof.Machine.execWireSectorErase s
  | .wireGetChipId _ _ _ => Sys2Proof.Machine.execWireGetChipId s
  | .wireMemoryRead _ _ _ => Sys2Proof.Machine.execWireMemoryRead s
  | .wireMemoryWrite _ _ _ => Sys2Proof.Machine.execWireMemoryWrite s
  | .wireBankErase _ _ _ => Sys2Proof.Machine.execWireBankErase s
  | .wireSetCcfg _ _ _ => Sys2Proof.Machine.execWireSetCcfg s
  | .crc32Pseudo bytes => Sys2Proof.Machine.execCrc32Pseudo bytes s
  | .checksumPseudo opc bytes => Sys2Proof.Machine.execChecksumPseudo opc bytes s

end Sys2Proof.Machine
end

