-- ==== Sys2Proof/WellFormed.lean ====
section
/-! DEFINITION. Which instructions are well-formed. A byte operand is in range by its type (30_encoding.md R71), and
CRC32.DEV's operands are any two u32 values (its range check is its own, 42_crc32_command.md R125). A packet of another
command carries its length byte and its check byte, which must be those of 30_encoding.md R63. -/

namespace Sys2Proof

/-- The length byte counts itself, the check byte, the opcode and the payload (30_encoding.md R63). -/
def lengthOk (len : Byte) (payload : List Byte) : Bool := len.toNat == 3 + payload.length

/-- The check byte is the checksum of opcode and payload (30_encoding.md R63). -/
def checkOk (opc cks : Byte) (payload : List Byte) : Bool := cks == Machine.checksum opc payload

/-- Both checks of a command packet. -/
def packetOk (opc len cks : Byte) (payload : List Byte) : Bool :=
  lengthOk len payload && checkOk opc cks payload

/-- Well-formedness, by instruction. -/
def Instr.wellFormed : Instr → Bool
  | .crcInit => true
  | .crcByte _ => true
  | .crcRead => true
  | .chkInit => true
  | .chkByte _ => true
  | .chkRead => true
  | .crc32Dev _ _ => true
  | .wirePing len cks p => packetOk 0x20 len cks p
  | .wireDownload len cks p => packetOk 0x21 len cks p
  | .wireGetStatus len cks p => packetOk 0x23 len cks p
  | .wireSendData len cks p => packetOk 0x24 len cks p
  | .wireReset len cks p => packetOk 0x25 len cks p
  | .wireSectorErase len cks p => packetOk 0x26 len cks p
  | .wireGetChipId len cks p => packetOk 0x28 len cks p
  | .wireMemoryRead len cks p => packetOk 0x2A len cks p
  | .wireMemoryWrite len cks p => packetOk 0x2B len cks p
  | .wireBankErase len cks p => packetOk 0x2C len cks p
  | .wireSetCcfg len cks p => packetOk 0x2D len cks p
  | .crc32Pseudo _ => true
  | .checksumPseudo _ _ => true

end Sys2Proof
end

