-- ==== Sys2Proof/Decode.lean ====
section
/-! DEFINITION. The decoder, total on anything handed over (30_encoding.md R61, R62, R64, R67 to R70, R72), then the encoder
written from the same tables, then the opcode table's numbering of bits. -/

namespace Sys2Proof

open Machine

/-- Format N: the operation is selected by `op` alone, and then `d` must be 0x00 (30_encoding.md R61, R62). -/
def formatN (w : PortWord) (i : Instr) : Decoded :=
  if byteField w = 0 then .instr i else .rejected (.reserved w)

/-- One port operation word (30_encoding.md R61, R62). -/
def decodePortWord (w : PortWord) : Decoded :=
  match (opField w).toNat with
  | 0x01 => formatN w .crcInit
  | 0x02 => .instr (.crcByte (byteField w))
  | 0x03 => formatN w .crcRead
  | 0x11 => formatN w .chkInit
  | 0x12 => .instr (.chkByte (byteField w))
  | 0x13 => formatN w .chkRead
  | _ => .rejected (.reserved w)

/-- The byte operands of a run of words of operation `op` that ends in the word `last`. -/
def takeOperands (op : Byte) (last : PortWord) : List PortWord → Option (List Byte)
  | [] => none
  | [w] => if w = last then some [] else none
  | w :: ws => if opField w = op then (takeOperands op last ws).map (byteField w :: ·) else none

/-- A group of several port words: the expansion of a pseudo-instruction (30_encoding.md R72) or nothing. -/
def decodeExpansion (first : PortWord) (rest : List PortWord) : Decoded :=
  if first = portWord 0x01 0 then
    match takeOperands 0x02 (portWord 0x03 0) rest with
    | some bytes => .instr (.crc32Pseudo bytes)
    | none => .rejected .notOneOperation
  else if first = portWord 0x11 0 then
    match takeOperands 0x12 (portWord 0x13 0) rest with
    | some (opc :: bytes) => .instr (.checksumPseudo opc bytes)
    | _ => .rejected .notOneOperation
  else .rejected .notOneOperation

/-- A group of port words handed over as one operation. -/
def decodePort : List PortWord → Decoded
  | [] => .rejected .notOneOperation
  | [w] => decodePortWord w
  | w :: v :: ws => decodeExpansion w (v :: ws)

/-- The bytes after the header of a CRC32 packet: address, count, and a repeat count that must be `CRC_REPEAT`
(30_encoding.md R64, R68; 93_implementation_defined.md U12). -/
def decodeCrc32 (len : Byte) (rest : List Byte) : Decoded :=
  if len.toNat = 15 ∧ rest.length = 12 ∧ rest.drop 8 = be32 Config.params.crcRepeat then
    .instr (.crc32Dev (fromBe32 (rest.take 4)) (fromBe32 ((rest.drop 4).take 4)))
  else .rejected .badCrc32Packet

/-- A wire packet by its opcode (30_encoding.md R67, R69). The match is on the header of 30_encoding.md R67: the CRC32 row
fixes LEN and OPC, the other rows OPC only. Entry 14. -/
def decodePacket : List Byte → Decoded
  | len :: cks :: opc :: rest =>
    match opc.toNat with
    | 0x20 => .instr (.wirePing len cks rest)
    | 0x21 => .instr (.wireDownload len cks rest)
    | 0x23 => .instr (.wireGetStatus len cks rest)
    | 0x24 => .instr (.wireSendData len cks rest)
    | 0x25 => .instr (.wireReset len cks rest)
    | 0x26 => .instr (.wireSectorErase len cks rest)
    | 0x27 => decodeCrc32 len rest
    | 0x28 => .instr (.wireGetChipId len cks rest)
    | 0x2A => .instr (.wireMemoryRead len cks rest)
    | 0x2B => .instr (.wireMemoryWrite len cks rest)
    | 0x2C => .instr (.wireBankErase len cks rest)
    | 0x2D => .instr (.wireSetCcfg len cks rest)
    | _ => .rejected (.wireOpcode opc)
  | _ => .rejected .truncatedPacket

/-- The decoder. -/
def decode : Issue → Decoded
  | .port words => decodePort words
  | .packet bytes => decodePacket bytes

/-- The length rule of a wire stream: read `LEN`, then `LEN - 1` more bytes (30_encoding.md R67). It answers the packet and
what follows it, or none while bytes are missing. A `LEN` of 0 has no `LEN - 1`, and the spec gives it no treatment: the answer is
none there too, whatever follows (the model's choice, entry 27). -/
def splitPacket : List Byte → Option (List Byte × List Byte)
  | [] => none
  | len :: rest =>
    if len.toNat - 1 ≤ rest.length ∧ 1 ≤ len.toNat then
      some (len :: rest.take (len.toNat - 1), rest.drop (len.toNat - 1))
    else none

/-- The expansion of `CRC32 [b0, …]` (30_encoding.md R72). -/
def expandCrc32 (bytes : List Byte) : List PortWord :=
  portWord 0x01 0 :: (bytes.map (portWord 0x02) ++ [portWord 0x03 0])

/-- The expansion of `CHECKSUM opc, [p0, …]` (30_encoding.md R72). -/
def expandChecksum (opc : Byte) (bytes : List Byte) : List PortWord :=
  portWord 0x11 0 :: portWord 0x12 opc :: (bytes.map (portWord 0x12) ++ [portWord 0x13 0])

/-- The encoder: port words by 30_encoding.md R61 and R72, packets by R63, R64 and R69. -/
def encode : Instr → Issue
  | .crcInit => .port [portWord 0x01 0]
  | .crcByte d => .port [portWord 0x02 d]
  | .crcRead => .port [portWord 0x03 0]
  | .chkInit => .port [portWord 0x11 0]
  | .chkByte d => .port [portWord 0x12 d]
  | .chkRead => .port [portWord 0x13 0]
  | .crc32Dev start count => .packet (crc32Packet Config.params start count)
  | .wirePing len cks p => .packet (len :: cks :: 0x20 :: p)
  | .wireDownload len cks p => .packet (len :: cks :: 0x21 :: p)
  | .wireGetStatus len cks p => .packet (len :: cks :: 0x23 :: p)
  | .wireSendData len cks p => .packet (len :: cks :: 0x24 :: p)
  | .wireReset len cks p => .packet (len :: cks :: 0x25 :: p)
  | .wireSectorErase len cks p => .packet (len :: cks :: 0x26 :: p)
  | .wireGetChipId len cks p => .packet (len :: cks :: 0x28 :: p)
  | .wireMemoryRead len cks p => .packet (len :: cks :: 0x2A :: p)
  | .wireMemoryWrite len cks p => .packet (len :: cks :: 0x2B :: p)
  | .wireBankErase len cks p => .packet (len :: cks :: 0x2C :: p)
  | .wireSetCcfg len cks p => .packet (len :: cks :: 0x2D :: p)
  | .crc32Pseudo bytes => .port (expandCrc32 bytes)
  | .checksumPseudo opc bytes => .port (expandChecksum opc bytes)

/-- Byte `k` of the number `w`, byte 0 its least significant. -/
def byteOfNat (w k : Nat) : Byte := BitVec.ofNat 8 (w >>> (8 * k))

/-- The packet whose header is the 24-bit number `H = LEN*2^16 + CKS*2^8 + OPC` in the low bits of `w` (30_encoding.md R67),
with `LEN - 3` payload bytes taken from the bits above it, the lowest byte first. Entry 23. -/
def tablePacket (w : Nat) : List Byte :=
  let len := byteOfNat w 2
  len :: byteOfNat w 1 :: byteOfNat w 0 :: (List.range (len.toNat - 3)).map (fun k => byteOfNat w (3 + k))

/-- An opcode-table word as the host would hand it over: a row of 16 bits is a port word, any other a wire packet. -/
def tableIssue (nbits w : Nat) : Issue :=
  if nbits = 16 then .port [BitVec.ofNat 16 w] else .packet (tablePacket (w % 2 ^ nbits))

/-- The instruction the decoder reads from an opcode-table word. -/
def decodeTableWord (nbits w : Nat) : Option Instr :=
  match decode (tableIssue nbits w) with
  | .instr i => some i
  | .rejected _ => none

end Sys2Proof
end

