-- ==== Sys2Proof/Machine/Fetch.lean ====
section
/-! DEFINITION. Taking the next input (10_state.md R24): what it asks for, and the effects of the inputs that are no
instruction. -/

namespace Sys2Proof.Machine

/-- What a step finds to do, with the state after the input has been taken from the queue. -/
inductive Fetched where
  /-- Nothing is issued. -/
  | idle
  /-- An instruction. -/
  | instr (i : Instr) (s : State)
  /-- An operation that the decoder rejected. -/
  | rejected (e : DecodeError) (s : State)
  /-- An input that is no operation of the opcode table. -/
  | other (x : HostInput) (s : State)
  deriving DecidableEq, Repr

/-- Take the oldest input and decode it. -/
def fetch (s : State) : Fetched :=
  match s.pending with
  | [] => .idle
  | .issue x :: rest =>
    match decode x with
    | .instr i => .instr i (s.setPending rest)
    | .rejected e => .rejected e (s.setPending rest)
  | x :: rest => .other x (s.setPending rest)

/-- What comes of an operation that is no instruction: a reserved port word raises `UnsupportedFunction` (30_encoding.md
R62), before any register is read (60_exceptions.md R153); the rest is refused by name (30_encoding.md R70). -/
def rejectOperation (e : DecodeError) (s : State) : Host.Outcome State Fault Refusal :=
  match e with
  | .reserved w => .next (s.raise ⟨.reservedWord, .portWord w⟩)
  | .wireOpcode opc => .refused (.wireOpcode opc)
  | .badCrc32Packet => .refused .badCrc32Packet
  | .truncatedPacket => .refused .truncatedPacket
  | .notOneOperation => .refused .notOneOperation

/-- Flash size in bytes from the word that was read: its low byte times the erase page size (10_state.md R26). -/
def flashSizeOf (p : Params) (v : Word) : Nat := (v.extractLsb' 0 8).toNat * p.pageSize

/-- A change of a session field (10_state.md R26). A RAM that would pass the 32-bit address space is a fault (entry 20). -/
def applySession (p : Params) (e : SessionEvent) (s : State) : Host.Outcome State Fault Refusal :=
  match e with
  | .portOpen b => .next (s.setSession { s.session with portOpen := b })
  | .linkActive b => .next (s.setSession { s.session with linkActive := b })
  | .flashSizeWord v => .next (s.setSession { s.session with flashSize := flashSizeOf p v })
  | .ramSize n =>
    if p.ramBase + n ≤ 2 ^ 32 then .next (s.setSession { s.session with ramSize := n })
    else .fault (.ramSizeOutside n)
  | .revision r => .next (s.setSession { s.session with revision := r })

/-- Bytes that a completed command of another layer left in device memory. They take effect at every 32-bit address, whatever the
session's sizes are: what the device holds does not wait for the host to read a size, and CRC32.DEV covers the memory left by
every command that completed before it (20_memory.md R48, 70_reset_and_hazards.md R175). Entry 13. Past the last address there
is no device memory (10_state.md R31). -/
def applyDeviceWrite (start : Word) (data : List Byte) (s : State) : Host.Outcome State Fault Refusal :=
  if start.toNat + data.length ≤ 2 ^ 32 then .next (s.setDmem (s.dmem.writeBytes start.toNat data))
  else .fault (.deviceAddressOutside start.toNat data.length)

/-- A session starts (70_reset_and_hazards.md R170): the engine, the sequencer and the fault log as after reset, and the
session fields as before any has been set. The transport, device memory and the queue are not of the block and stay. -/
def startSession (s : State) : State :=
  { State.reset with link := s.link, dmem := s.dmem, pending := s.pending }

/-- The effect of an input that is no operation of the opcode table. An `issue` never comes here (`fetch`). -/
def applyInput (p : Params) (x : HostInput) (s : State) : Host.Outcome State Fault Refusal :=
  match x with
  | .issue _ => .next s
  | .verify img start => .next (verify p img start s)
  | .session e => applySession p e s
  | .deviceWrite start data => applyDeviceWrite start data s
  | .sessionStart => .next (startSession s)

end Sys2Proof.Machine
end

