-- ==== Sys2Proof/Machine/Sequencer.lean ====
section
/-! DEFINITION. The command sequencer one read at a time. `phase`, `sub`, `attempts` and `rx` exist "so that a model can step
an exchange one read at a time" (10_state.md R29); `tick` is that step, and the state alone says what it does next. -/

namespace Sys2Proof.Machine

/-- The sequencer waits for the ACK or NAK byte: one attempt of `RecvAck` (42_crc32_command.md R128). -/
def tickAck (p : Params) (s : State) : State :=
  let r := txRead 1 s.countAttempt
  if r.1 = [p.ackByte] then enterData r.2
  else if r.1 = [p.nakByte] then deviceNak r.2
  else if p.crcAckRetries < r.2.seq.attempts then ackTimeout r.2
  else r.2

/-- Whether the reply header is still missing. -/
def inHeader (s : State) : Bool := decide (s.seq.rx.length < 2)

/-- How many bytes the `RecvExact` in progress collects: the header's 2, then `RLEN - 2` (42_crc32_command.md R121). -/
def wanted (s : State) : Nat := if inHeader s then 2 else (s.seq.rx.getD 0 0).toNat - 2

/-- `RecvExact` has collected its bytes: go on as 42_crc32_command.md R121 says, up to the next read or the end. -/
def collected (p : Params) (s : State) : State :=
  let s1 := s.keepOut
  let rlen := s1.seq.rx.getD 0 0
  let rcks := s1.seq.rx.getD 1 0
  if inHeader s then
    if rlen.toNat < 2 then nakFail p .lengthBelowTwo s1
    else if rlen.toNat = 2 then judgeReply p rcks [] (s1.setOut [])
    else s1.setOut []
  else judgeReply p rcks s1.seq.out s1

/-- The sequencer waits for reply bytes: one pass of the loop of `RecvExact` (42_crc32_command.md R130). -/
def tickData (p : Params) (s : State) : State :=
  let r := txRead (wanted s - s.seq.out.length) s
  if r.1 = [] then
    let s1 := r.2.countAttempt
    if p.crcDataRetries < s1.seq.attempts then nakFail p (if inHeader s then .shortHeader else .shortData) s1
    else s1
  else
    let s1 := r.2.setOut (r.2.seq.out ++ r.1)
    if wanted s ≤ s1.seq.out.length then collected p s1 else s1

/-- One step of the command sequencer inside an exchange: one `TxRead` and what follows it. -/
def tick (p : Params) (s : State) : State :=
  match s.seq.sub with
  | .ack => tickAck p s
  | .data => tickData p s

end Sys2Proof.Machine
end

