-- ==== Sys2Proof/Machine/Step.lean ====
section
/-! DEFINITION. One step of the closed machine. -/

namespace Sys2Proof.Machine

/-- Inside an exchange the sequencer goes on and takes no input (42_crc32_command.md R141, 20_memory.md R48); else the next
input is taken, and with none the block waits for the host (10_state.md R24). Entries 2 and 7. -/
def step (s : State) : Host.Outcome State Fault Refusal :=
  match s.seq.phase with
  | .awaitingResponse => .next (tick Config.params s)
  | .done =>
    match fetch s with
    | .idle => .next s
    | .instr i t => exec i t
    | .rejected e t => rejectOperation e t
    | .other x t => applyInput Config.params x t

/-- `s` with this opcode-table word as the operation the host issues next, and no exchange in progress, so that the very next
step takes it. Entries 1 and 23. -/
def State.withFetchWord (s : State) (nbits w : Nat) : State :=
  (s.setPhase .done).setPending (.issue (tableIssue nbits w) :: s.pending)

end Sys2Proof.Machine
end

