-- ==== Sys2Proof/Machine/Asm.lean ====
section
/-! DEFINITION. The assembler syntax of 30_encoding.md R71, one operation per line, with the two pseudo-instructions of
30_encoding.md R72. A line is a list of characters. -/

namespace Sys2Proof.Machine

/-- The tokens of a line. -/
inductive Token where
  | word (cs : List Char)
  | comma
  | openBracket
  | closeBracket
  deriving DecidableEq, Repr

/-- What a line assembles to. -/
inductive AsmResult where
  /-- Nothing but a comment or spaces. -/
  | blank
  | op (i : Instr)
  /-- An assembly error; it is not an encoding (30_encoding.md R71). -/
  | error
  deriving DecidableEq, Repr

/-- The characters collected so far, reversed, as a token before the rest. -/
def flushWord (acc : List Char) (rest : List Token) : List Token :=
  match acc with
  | [] => rest
  | _ => .word acc.reverse :: rest

/-- Split a line into tokens; `;` starts a comment (30_encoding.md R71). -/
def tokenize : List Char → List Char → List Token
  | acc, [] => flushWord acc []
  | acc, c :: cs =>
    if c = ';' then flushWord acc []
    else if c = ' ' ∨ c = '\t' then flushWord acc (tokenize [] cs)
    else if c = ',' then flushWord acc (.comma :: tokenize [] cs)
    else if c = '[' then flushWord acc (.openBracket :: tokenize [] cs)
    else if c = ']' then flushWord acc (.closeBracket :: tokenize [] cs)
    else tokenize (c :: acc) cs

/-- The value of a digit, in any base up to 16. -/
def digitValue (c : Char) : Option Nat :=
  if '0' ≤ c ∧ c ≤ '9' then some (c.toNat - '0'.toNat)
  else if 'a' ≤ c ∧ c ≤ 'f' then some (c.toNat - 'a'.toNat + 10)
  else if 'A' ≤ c ∧ c ≤ 'F' then some (c.toNat - 'A'.toNat + 10)
  else none

/-- Read digits of a base onto the number read so far. -/
def readDigits (base : Nat) : Nat → List Char → Option Nat
  | n, [] => some n
  | n, c :: cs => (digitValue c).bind fun d => if d < base then readDigits base (base * n + d) cs else none

/-- A number in decimal or `0x` hexadecimal (30_encoding.md R71). -/
def readNumber : List Char → Option Nat
  | '0' :: 'x' :: c :: cs => readDigits 16 0 (c :: cs)
  | c :: cs => readDigits 10 0 (c :: cs)
  | [] => none

/-- `<imm8>`: a number from 0 to 255 (30_encoding.md R71). -/
def imm8 (cs : List Char) : Option Byte :=
  (readNumber cs).bind fun n => if n < 2 ^ 8 then some (BitVec.ofNat 8 n) else none

/-- `<start32>` or `<count32>`: a number that a u32 holds (30_encoding.md R71). -/
def imm32 (cs : List Char) : Option Word :=
  (readNumber cs).bind fun n => if n < 2 ^ 32 then some (BitVec.ofNat 32 n) else none

/-- The bytes of a bracketed list after its first, up to and with the closing bracket. -/
def moreBytes : List Token → Option (List Byte)
  | [.closeBracket] => some []
  | .comma :: .word cs :: rest => (imm8 cs).bind fun b => (moreBytes rest).map (b :: ·)
  | _ => none

/-- The bytes of a bracketed list after its opening bracket. -/
def byteList : List Token → Option (List Byte)
  | [.closeBracket] => some []
  | .word cs :: rest => (imm8 cs).bind fun b => (moreBytes rest).map (b :: ·)
  | _ => none

/-- The instruction that the tokens of a line spell, if they spell one. -/
def parseOperation : List Token → Option Instr
  | [.word m] =>
    if m = "CRC.INIT".toList then some .crcInit
    else if m = "CRC.READ".toList then some .crcRead
    else if m = "CHK.INIT".toList then some .chkInit
    else if m = "CHK.READ".toList then some .chkRead
    else none
  | [.word m, .word a] =>
    if m = "CRC.BYTE".toList then (imm8 a).map .crcByte
    else if m = "CHK.BYTE".toList then (imm8 a).map .chkByte
    else none
  | [.word m, .word a, .comma, .word b] =>
    if m = "CRC32.DEV".toList then (imm32 a).bind fun x => (imm32 b).map fun y => .crc32Dev x y
    else none
  | .word m :: .openBracket :: rest =>
    if m = "CRC32".toList then (byteList rest).map .crc32Pseudo else none
  | .word m :: .word a :: .comma :: .openBracket :: rest =>
    if m = "CHECKSUM".toList then (imm8 a).bind fun x => (byteList rest).map fun ys => .checksumPseudo x ys
    else none
  | _ => none

/-- Assemble one line (30_encoding.md R71). -/
def assembleLine (line : List Char) : AsmResult :=
  match tokenize [] line with
  | [] => .blank
  | ts =>
    match parseOperation ts with
    | some i => .op i
    | none => .error

end Sys2Proof.Machine
end

