-- ==== Sys2Proof/Safety.lean ====
section
/-! DEFINITION. What a good run is (60_exceptions.md R151), and the invariant of the machine. -/

namespace Sys2Proof

open Machine

/-- No port fault is in the log: "a run that has logged one is not a good run" (60_exceptions.md R151). A session start empties
the log (70_reset_and_hazards.md R170), and the spec does not say whether a run that logged one before it is good afterwards:
it is, since only the current log is looked at, so a run is judged from its last session start on (the model's choice,
entry 28). -/
def Good (s : State) : Bool := s.faultLog.isEmpty

/-- The conditions of steps 1 and 2 (42_crc32_command.md R122 to R125), written out: CRC32.DEV goes on to send its command. -/
def Admitted (start count : Word) (s : State) : Prop :=
  s.session.portOpen = true ∧ s.session.linkActive = true ∧ count ≠ 0 ∧
    (start.toNat + count.toNat ≤ s.session.flashSize ∨
      (0x20000000 ≤ start.toNat ∧ start.toNat + count.toNat ≤ 0x20000000 + s.session.ramSize))

/-- The port words that 30_encoding.md R61 assigns. -/
def AssignedPortWord (w : PortWord) : Prop :=
  w = 0x0100 ∨ w = 0x0300 ∨ w = 0x1100 ∨ w = 0x1300 ∨ w.extractLsb' 8 8 = 0x02#8 ∨ w.extractLsb' 8 8 = 0x12#8

/-- An answer that is neither ACK nor NAK to a read of one byte (42_crc32_command.md R128). -/
def NoAnswer (p : Params) (x : List Byte) : Prop := x.take 1 ≠ [p.ackByte] ∧ x.take 1 ≠ [p.nakByte]

/-- The instructions whose parts read or write `ACC` (10_state.md R21, 30_encoding.md R72). -/
def UsesAcc : Instr → Bool
  | .crcInit | .crcByte _ | .crcRead | .crc32Pseudo _ => true
  | .chkInit | .chkByte _ | .chkRead | .checksumPseudo _ _ => false
  | .crc32Dev _ _ => false
  | .wirePing _ _ _ | .wireDownload _ _ _ | .wireGetStatus _ _ _ | .wireSendData _ _ _ => false
  | .wireReset _ _ _ | .wireSectorErase _ _ _ | .wireGetChipId _ _ _ | .wireMemoryRead _ _ _ => false
  | .wireMemoryWrite _ _ _ | .wireBankErase _ _ _ | .wireSetCcfg _ _ _ => false

/-- The instructions whose parts read or write `CHK` (10_state.md R22, 30_encoding.md R72). -/
def UsesChk : Instr → Bool
  | .chkInit | .chkByte _ | .chkRead | .checksumPseudo _ _ => true
  | .crcInit | .crcByte _ | .crcRead | .crc32Pseudo _ => false
  | .crc32Dev _ _ => false
  | .wirePing _ _ _ | .wireDownload _ _ _ | .wireGetStatus _ _ _ | .wireSendData _ _ _ => false
  | .wireReset _ _ _ | .wireSectorErase _ _ _ | .wireGetChipId _ _ _ | .wireMemoryRead _ _ _ => false
  | .wireMemoryWrite _ _ _ | .wireBankErase _ _ _ | .wireSetCcfg _ _ _ => false

/-- What the spec says the session fields can hold (10_state.md R26): a flash size that is a multiple of the page size and no
greater than 255 pages. That RAM lies within the 32-bit address space is not of R26 but the model's choice, entry 20. -/
def SessionOk (x : Session) : Prop :=
  x.flashSize % Config.params.pageSize = 0 ∧ x.flashSize ≤ Config.maxFlashSize ∧
    Config.params.ramBase + x.ramSize ≤ 2 ^ 32

/-- The invariant that every step keeps: no exchange in progress between steps (42_crc32_command.md R136), device memory in
its canonical form, a flash size as 10_state.md R26 says and a RAM size as entry 20 says, and only codes 6 and 7 in the fault
log (60_exceptions.md R151). -/
def Inv (s : State) : Prop :=
  s.seq.phase = .done ∧ s.dmem.wf = true ∧ SessionOk s.session ∧ ∀ e ∈ s.faultLog, e.isPortFault = true

end Sys2Proof
end

