-- ==== Sys2Proof/Certificates/Slice0/Obligations.lean ====
section
/-! DEFINITION. The statements, in the order of the spec's files. `Config.params` is the machine's parameter record: a
statement that names it and a CRC value rests on decision D1. -/

open Sys2Proof Sys2Proof.Machine

/-! ### Notation and state -/

/-- R9. `be32` and `from_be32` as 00_scope.md R9 writes them, and the round trip. -/
def Obligations.MarshallingIsBigEndian : Prop :=
  (∀ v : Word, be32 v =
    [BitVec.ofNat 8 (v.toNat / 2 ^ 24), BitVec.ofNat 8 (v.toNat / 2 ^ 16), BitVec.ofNat 8 (v.toNat / 2 ^ 8),
      BitVec.ofNat 8 v.toNat]) ∧
  (∀ b0 b1 b2 b3 : Byte, (fromBe32 [b0, b1, b2, b3]).toNat =
    b0.toNat * 2 ^ 24 + b1.toNat * 2 ^ 16 + b2.toNat * 2 ^ 8 + b3.toNat) ∧
  ∀ x : Word, fromBe32 (be32 x) = x

/-- R21. `ACC` is unset at reset; CRC.INIT and CRC.BYTE write it, CRC.READ reads it, and no operation but these (and the
pseudo-instruction made of them) reads or writes it. -/
def Obligations.AccBelongsToCrcOperations : Prop :=
  State.reset.acc = .unset ∧
  (∀ s t : State, exec .crcInit s = .next t → t.acc = .val 0xFFFFFFFF) ∧
  (∀ (d : Byte) (s t : State) (a : Word), s.acc = .val a → exec (.crcByte d) s = .next t →
    t.acc = .val (crcStep Config.params a d)) ∧
  (∀ (s t : State) (a : Word), s.acc = .val a → exec .crcRead s = .next t →
    t.result = some (.ok (.u32 (a ^^^ 0xFFFFFFFF))) ∧ t.acc = .val a) ∧
  ∀ (i : Instr) (s t : State), UsesAcc i = false → exec i s = .next t →
    t.acc = s.acc ∧ ∀ a : Reg 32, exec i { s with acc := a } = .next { t with acc := a }

/-- R22. `CHK` is unset at reset; it holds the sum of the bytes given since the last CHK.INIT modulo 256; CHK.INIT and CHK.BYTE
write it, CHK.READ reads it, and no operation but these (and the pseudo-instruction made of them) reads or writes it. -/
def Obligations.ChkBelongsToChkOperations : Prop :=
  State.reset.chk = .unset ∧
  (∀ s t : State, exec .chkInit s = .next t → t.chk = .val 0) ∧
  (∀ (ds : List Byte) (d : Byte) (s t : State),
    (chkBytes ds (chkInit s)).chk = .val (BitVec.ofNat 8 ((ds.map BitVec.toNat).sum % 256)) ∧
    (exec (.chkByte d) (chkBytes ds (chkInit s)) = .next t → t.chk = (chkBytes (ds ++ [d]) (chkInit s)).chk)) ∧
  (∀ (s t : State) (c : Byte), s.chk = .val c → exec .chkRead s = .next t →
    t.result = some (.ok (.u8 c)) ∧ t.chk = .val c) ∧
  ∀ (i : Instr) (s t : State), UsesChk i = false → exec i s = .next t →
    t.chk = s.chk ∧ ∀ c : Reg 8, exec i { s with chk := c } = .next { t with chk := c }

/-- R170. What reset leaves, at `State.reset` and when a session starts. -/
def Obligations.SessionStartResetsBlock : Prop :=
  (State.reset.acc = .unset ∧ State.reset.chk = .unset ∧ State.reset.seq.phase = .done ∧ State.reset.faultLog = []) ∧
  ∀ (s : State) (rest : List HostInput), s.seq.phase = .done → s.pending = .sessionStart :: rest →
    ∃ t, step s = .next t ∧ t.acc = .unset ∧ t.chk = .unset ∧ t.seq.phase = .done ∧ t.faultLog = []

/-- The model's choice (entries 1, 3 and 9 to 12): what `State.reset` gives the state whose reset value the spec leaves open,
beside the sizes that 10_state.md R26 sets to 0; and (entry 10) that a session start sets the same but keeps the transport,
device memory and the rest of the queue. -/
def Obligations.ResetValuesChosen : Prop :=
  State.reset.seq.sub = .ack ∧ State.reset.seq.attempts = 0 ∧ State.reset.seq.rx = [] ∧ State.reset.seq.out = [] ∧
  State.reset.session = ⟨false, false, 0, 0, .unknown⟩ ∧ State.reset.dmem = [] ∧ State.reset.pending = [] ∧
  State.reset.result = none ∧ State.reset.link = ⟨[], [], 0, []⟩ ∧
  ∀ (s : State) (rest : List HostInput), s.seq.phase = .done → s.pending = .sessionStart :: rest →
    step s = .next { State.reset with link := s.link, dmem := s.dmem, pending := rest }

/-! ### Taking operations -/

/-- R24. Between exchanges the oldest input is taken. If it is an operation that decodes to an instruction, the step is `exec`
of that instruction in the state without the input. With no input the state stays (entry 2); inside an exchange the sequencer
goes on and no input is taken (entry 7). -/
def Obligations.StepRunsTheDecodedInstruction : Prop :=
  (∀ (s : State) (x : Issue) (i : Instr) (rest : List HostInput),
    s.seq.phase = .done → s.pending = .issue x :: rest → decode x = .instr i →
    step s = exec i { s with pending := rest }) ∧
  (∀ s : State, s.seq.phase = .done → s.pending = [] → step s = .next s) ∧
  (∀ s : State, s.seq.phase = .awaitingResponse → step s = .next (tick Config.params s))

/-- An opcode-table word placed by `withFetchWord` is what the very next step runs, in the state it was placed into. -/
def Obligations.PlacedTableWordRunsNext : Prop :=
  ∀ (s : State) (nbits w : Nat) (i : Instr), s.seq.phase = .done → decodeTableWord nbits w = some i →
    step (s.withFetchWord nbits w) = exec i s

/-! ### Encoding -/

/-- A few words written out from 30_encoding.md R61, R64 and R69, and what they decode to. That the words of an expansion (R72)
handed over as one group are the pseudo-instruction is the model's choice, entry 16. -/
def Obligations.WrittenWordsDecode : Prop :=
  decode (.port [0x0100]) = .instr .crcInit ∧ decode (.port [0x0231]) = .instr (.crcByte 0x31) ∧
  decode (.port [0x0300]) = .instr .crcRead ∧ decode (.port [0x1100]) = .instr .chkInit ∧
  decode (.port [0x1227]) = .instr (.chkByte 0x27) ∧ decode (.port [0x1300]) = .instr .chkRead ∧
  decode (.packet [0x0F, 0x48, 0x27, 0x20, 0x00, 0x00, 0x00, 0x00, 0x00, 0x01, 0x00, 0x00, 0x00, 0x00, 0x00]) =
    .instr (.crc32Dev 0x20000000 0x00000100) ∧
  decode (.packet [0x03, 0x20, 0x20]) = .instr (.wirePing 0x03 0x20 []) ∧
  decode (.port [0x0100, 0x0231, 0x0300]) = .instr (.crc32Pseudo [0x31]) ∧
  decode (.port [0x1100, 0x1220, 0x1300]) = .instr (.checksumPseudo 0x20 [])

/-- Decoding what the encoder writes gives the instruction back, for every instruction and every operand. -/
def Obligations.DecodeEncodeAgree : Prop :=
  ∀ i : Instr, decode (encode i) = .instr i

/-- Each single port word has at most one meaning, and the encoder writes it back. -/
def Obligations.EncodeDecodePortWord : Prop :=
  ∀ (w : PortWord) (i : Instr), decode (.port [w]) = .instr i → encode i = .port [w]

/-- R62. Every port word that 30_encoding.md R61 does not assign is reserved. It raises `UnsupportedFunction` with the word, is
logged, and changes nothing else. (Whether the engine then carries on is open, R151; this holds if it does.) -/
def Obligations.ReservedPortWordsAreUnsupported : Prop :=
  (∀ w : PortWord, (∃ i, decode (.port [w]) = .instr i) ↔ AssignedPortWord w) ∧
  (∀ w : PortWord, ¬ AssignedPortWord w → decode (.port [w]) = .rejected (.reserved w)) ∧
  Reason.kind .reservedWord = .unsupportedFunction ∧
  ∀ (s t : State) (w : PortWord) (rest : List HostInput),
    ¬ AssignedPortWord w → s.seq.phase = .done → s.pending = .issue (.port [w]) :: rest → step s = .next t →
    t = { s with
      pending := rest
      result := some (.err ⟨.reservedWord, .portWord w⟩)
      faultLog := s.faultLog ++ [⟨.reservedWord, .portWord w⟩] }

/-- R63. A command packet of any opcode whose payload fits: its length byte counts all of it, its check byte is the sum of
opcode and payload modulo 256, and the length byte is not summed. -/
def Obligations.CommandPacketLayout : Prop :=
  ∀ (opc : Byte) (payload : List Byte), payload.length ≤ 252 →
    ∃ len cks : Byte, commandPacket opc payload = [len, cks, opc] ++ payload ∧
      len.toNat = 3 + payload.length ∧ len.toNat = (commandPacket opc payload).length ∧
      cks.toNat = (opc.toNat + (payload.map BitVec.toNat).sum) % 256

/-- R64. The CRC32 command packet, byte by byte. -/
def Obligations.Crc32PacketLayout : Prop :=
  ∀ start count : Word,
    encode (.crc32Dev start count) = .packet
      ([0x0F, checksum 0x27 (be32 start ++ be32 count ++ [0, 0, 0, 0]), 0x27] ++ be32 start ++ be32 count ++ [0, 0, 0, 0]) ∧
    (crc32Packet Config.params start count).length = 15

/-- R65. A reply data packet: `RLEN = 2 + len(DATA)`, `RCKS` the sum of the data bytes modulo 256; 6 for four data bytes. -/
def Obligations.ReplyPacketLayout : Prop :=
  ∀ data : List Byte, data.length ≤ 253 →
    ∃ rlen rcks : Byte, replyPacket data = [rlen, rcks] ++ data ∧ rlen.toNat = 2 + data.length ∧
      rcks.toNat = (data.map BitVec.toNat).sum % 256 ∧ (data.length = 4 → rlen = 0x06)

/-- The length rule of a wire stream (30_encoding.md R67) cuts a stream of well-formed packets where they end. -/
def Obligations.StreamSplitsAtPacketEnd : Prop :=
  ∀ (opc : Byte) (payload rest : List Byte), payload.length ≤ 252 →
    splitPacket (commandPacket opc payload ++ rest) = some (commandPacket opc payload, rest) ∧
    ∀ k < (commandPacket opc payload).length, splitPacket ((commandPacket opc payload).take k) = none

/-- R70. Handed a wire packet whose opcode is not 0x27, the machine refuses, naming the opcode: the eleven commands that the
source lists and every opcode that it does not. -/
def Obligations.OtherWirePacketsRefused : Prop :=
  (∀ (s : State) (len cks : Byte) (p : List Byte),
    exec (.wirePing len cks p) s = .refused (.wireOpcode 0x20) ∧
    exec (.wireDownload len cks p) s = .refused (.wireOpcode 0x21) ∧
    exec (.wireGetStatus len cks p) s = .refused (.wireOpcode 0x23) ∧
    exec (.wireSendData len cks p) s = .refused (.wireOpcode 0x24) ∧
    exec (.wireReset len cks p) s = .refused (.wireOpcode 0x25) ∧
    exec (.wireSectorErase len cks p) s = .refused (.wireOpcode 0x26) ∧
    exec (.wireGetChipId len cks p) s = .refused (.wireOpcode 0x28) ∧
    exec (.wireMemoryRead len cks p) s = .refused (.wireOpcode 0x2A) ∧
    exec (.wireMemoryWrite len cks p) s = .refused (.wireOpcode 0x2B) ∧
    exec (.wireBankErase len cks p) s = .refused (.wireOpcode 0x2C) ∧
    exec (.wireSetCcfg len cks p) s = .refused (.wireOpcode 0x2D)) ∧
  ∀ (s : State) (len cks opc : Byte) (p : List Byte) (rest : List HostInput),
    opc ≠ 0x27 → s.seq.phase = .done → s.pending = .issue (.packet (len :: cks :: opc :: p)) :: rest →
    step s = .refused (.wireOpcode opc)

/-- The model's reading (entry 15) of 93_implementation_defined.md U12 and 30_encoding.md R64: a packet with opcode 0x27 is
the CRC32 command exactly if its length byte is 15, it holds 15 bytes and its read-repeat-count is 0; any other is refused. -/
def Obligations.MalformedCrc32PacketRefused : Prop :=
  ∀ (s : State) (len cks : Byte) (p : List Byte) (rest : List HostInput),
    s.seq.phase = .done → s.pending = .issue (.packet (len :: cks :: 0x27 :: p)) :: rest →
    if len = 0x0F ∧ p.length = 12 ∧ p.drop 8 = [0, 0, 0, 0] then
      step s = exec (.crc32Dev (fromBe32 (p.take 4)) (fromBe32 ((p.drop 4).take 4))) { s with pending := rest }
    else step s = .refused .badCrc32Packet

/-- R71. Lines of the assembler syntax and the instructions they stand for; an immediate out of range is an assembly error. -/
def Obligations.AssemblerLines : Prop :=
  assembleLine "CRC.INIT".toList = .op .crcInit ∧ assembleLine "CRC.BYTE 0x31".toList = .op (.crcByte 0x31) ∧
  assembleLine "CRC.BYTE 255 ; the largest".toList = .op (.crcByte 0xFF) ∧
  assembleLine "CRC.READ".toList = .op .crcRead ∧ assembleLine "CHK.INIT".toList = .op .chkInit ∧
  assembleLine "CHK.BYTE 0".toList = .op (.chkByte 0) ∧ assembleLine "CHK.READ".toList = .op .chkRead ∧
  assembleLine "CRC32.DEV 0x20000000, 256".toList = .op (.crc32Dev 0x20000000 0x100) ∧
  assembleLine "; only a comment".toList = .blank ∧
  assembleLine "CRC.BYTE 256".toList = .error ∧ assembleLine "CHK.BYTE 0x100".toList = .error

/-- R72. Each pseudo-instruction does what its expansion does, word by word: from the state in which the expansion's words are
the next operations, stepping through them reaches exactly the state that the one instruction reaches. -/
def Obligations.PseudoInstructionsExpand : Prop :=
  (∀ bytes : List Byte, expandCrc32 bytes = 0x0100 :: (bytes.map (fun b => 0x02#8 ++ b) ++ [0x0300])) ∧
  (∀ (opc : Byte) (bytes : List Byte), expandChecksum opc bytes =
    0x1100 :: (0x12#8 ++ opc) :: (bytes.map (fun b => 0x12#8 ++ b) ++ [0x1300])) ∧
  (∀ (bytes : List Byte) (s : State) (rest : List HostInput), s.seq.phase = .done →
    s.pending = (expandCrc32 bytes).map (fun w => .issue (.port [w])) ++ rest →
    ∃ t v, exec (.crc32Pseudo bytes) { s with pending := rest } = .next t ∧ t.result = some (.ok v) ∧
      Sys2Proof.core.run (bytes.length + 2) s = .next t) ∧
  (∀ (opc : Byte) (bytes : List Byte) (s : State) (rest : List HostInput), s.seq.phase = .done →
    s.pending = (expandChecksum opc bytes).map (fun w => .issue (.port [w])) ++ rest →
    ∃ t v, exec (.checksumPseudo opc bytes) { s with pending := rest } = .next t ∧ t.result = some (.ok v) ∧
      Sys2Proof.core.run (bytes.length + 3) s = .next t)

/-! ### The CRC-32 datapath -/

/-- R80. The step function, as the eight-pass loop of 40_crc32.md R80, with the polynomial that is the bit reversal of
`0x04C11DB7`. -/
def Obligations.CrcStepIsTheReflectedLoop : Prop :=
  (∀ (acc : Word) (d : Byte), crcStep Config.params acc d =
    (fun a : Word => if a &&& 1#32 = 1#32 then (a >>> 1) ^^^ 0xEDB88320#32 else a >>> 1)^[8] (acc ^^^ d.zeroExtend 32)) ∧
  (0x04C11DB7#32).reverse = 0xEDB88320#32

/-- The vectors of 95_test_vectors.md, sections 2.1 and 2.2. They rest on decision D1. -/
def Obligations.CrcVectors : Prop :=
  crcStep Config.params 0 0x01 = 0x77073096 ∧ crcStep Config.params 0 0x80 = 0xEDB88320 ∧
  crcStep Config.params 0xFFFFFFFF 0xFF = 0x00FFFFFF ∧
  crc32 Config.params [] = 0 ∧ crc32 Config.params [0x00] = 0xD202EF8D ∧ crc32 Config.params [0x01] = 0xA505DF1B ∧
  crc32 Config.params [0xDE, 0xAD, 0xBE, 0xEF] = 0x7C9CA35A ∧ crc32 Config.params [0xEF, 0xBE, 0xAD, 0xDE] = 0x1A5A601F ∧
  crc32 Config.params [0x31, 0x32, 0x33, 0x34, 0x35, 0x36, 0x37, 0x38, 0x39] = 0xCBF43926

/-- R81. CRC.INIT: its encoding, its reserved variants, and its whole effect in every state. -/
def Obligations.CrcInitEffect : Prop :=
  encode .crcInit = .port [0x0100] ∧ decode (.port [0x0100]) = .instr .crcInit ∧
  (∀ d : Byte, d ≠ 0 → decode (.port [0x01#8 ++ d]) = .rejected (.reserved (0x01#8 ++ d)) ∧
    ∀ (s t : State) (rest : List HostInput), s.seq.phase = .done →
      s.pending = .issue (.port [0x01#8 ++ d]) :: rest → step s = .next t →
      t.result = some (.err ⟨.reservedWord, .portWord (0x01#8 ++ d)⟩)) ∧
  Reason.kind .reservedWord = .unsupportedFunction ∧
  ∀ s : State, exec .crcInit s = .next { s with acc := .val 0xFFFFFFFF, result := some (.ok .unit) }

/-- R82. CRC.BYTE: its encoding, its whole effect where `ACC` is set, `UnsetState` where it is not (if the engine carries on,
R151), the zero byte's only fixed point, and the example. -/
def Obligations.CrcByteEffect : Prop :=
  (∀ d : Byte, encode (.crcByte d) = .port [0x02#8 ++ d] ∧ decode (.port [0x02#8 ++ d]) = .instr (.crcByte d)) ∧
  (∀ (d : Byte) (s : State) (a : Word), s.acc = .val a →
    exec (.crcByte d) s = .next { s with acc := .val (crcStep Config.params a d), result := some (.ok .unit) }) ∧
  (∀ (d : Byte) (s t : State), s.acc = .unset → exec (.crcByte d) s = .next t →
    t = { s with
      result := some (.err ⟨.crcByteBeforeInit, .mnemonic .crcByte⟩)
      faultLog := s.faultLog ++ [⟨.crcByteBeforeInit, .mnemonic .crcByte⟩] }) ∧
  Reason.kind .crcByteBeforeInit = .unsetState ∧
  (∀ a : Word, crcStep Config.params a 0 = a ↔ a = 0) ∧
  crcStep Config.params 0xFFFFFFFF 0x31 = 0x7C231048

/-- R83. CRC.READ: its encoding, its value where `ACC` is set, `UnsetState` where it is not (if the engine carries on, R151),
and that it changes no register, so that a second read returns the same and the read after CRC.INIT returns 0. -/
def Obligations.CrcReadEffect : Prop :=
  encode .crcRead = .port [0x0300] ∧ decode (.port [0x0300]) = .instr .crcRead ∧
  (∀ (s : State) (a : Word), s.acc = .val a →
    exec .crcRead s = .next { s with result := some (.ok (.u32 (a ^^^ 0xFFFFFFFF))) }) ∧
  (∀ s t : State, s.acc = .unset → exec .crcRead s = .next t →
    t = { s with
      result := some (.err ⟨.crcReadBeforeInit, .mnemonic .crcRead⟩)
      faultLog := s.faultLog ++ [⟨.crcReadBeforeInit, .mnemonic .crcRead⟩] }) ∧
  Reason.kind .crcReadBeforeInit = .unsetState ∧
  (∀ (s t : State) (a : Word), s.acc = .val a → exec .crcRead s = .next t → exec .crcRead t = .next t) ∧
  (∀ s t : State, exec .crcInit s = .next t → exec .crcRead t = .next { t with result := some (.ok (.u32 0)) }) ∧
  crcFold Config.params 0xFFFFFFFF [0x31, 0x32, 0x33, 0x34, 0x35, 0x36, 0x37, 0x38, 0x39] ^^^ 0xFFFFFFFF = 0xCBF43926

/-- R85. The pseudo-instruction CRC32 returns `crc32` of its bytes and leaves the fold in `ACC`, in every state. -/
def Obligations.Crc32PseudoResult : Prop :=
  (∀ (bytes : List Byte) (s : State), exec (.crc32Pseudo bytes) s = .next { s with
    acc := .val (crcFold Config.params 0xFFFFFFFF bytes)
    result := some (.ok (.u32 (crc32 Config.params bytes))) }) ∧
  crc32 Config.params [] = 0

/-- R86. The streaming law, for every parameter record; and a CRC.READ between two runs of CRC.BYTE does not disturb it. -/
def Obligations.CrcStreams : Prop :=
  (∀ (p : Params) (a : Word) (s t : List Byte), crcFold p a (s ++ t) = crcFold p (crcFold p a s) t) ∧
  ∀ (p : Params) (a : Word) (bs cs : List Byte) (s : State), s.acc = .val a →
    (crcBytes p cs (crcRead p (crcBytes p bs s))).acc = .val (crcFold p a (bs ++ cs))

/-- R87. The affine law, for every parameter record. -/
def Obligations.CrcIsAffine : Prop :=
  ∀ (p : Params) (a b : List Byte), a.length = b.length →
    crc32 p (List.zipWith (· ^^^ ·) a b) = crc32 p a ^^^ crc32 p b ^^^ crc32 p (List.replicate a.length 0)

/-- R88. The nibble table is the loop of R80 run four times on its index, and the nibble form equals the bitwise step. -/
def Obligations.NibbleFormAgrees : Prop :=
  (nibbleTable.length = 16 ∧ ∀ i < 16, nibbleTable.getD i 0 = crcStep4 Config.params (BitVec.ofNat 32 i)) ∧
  ∀ (acc : Word) (d : Byte), crcStepNibble acc d = crcStep Config.params acc d

/-! ### The framing checksum -/

/-- R101. CHK.INIT: its encoding, its reserved variants, and its whole effect in every state. -/
def Obligations.ChkInitEffect : Prop :=
  encode .chkInit = .port [0x1100] ∧ decode (.port [0x1100]) = .instr .chkInit ∧
  (∀ d : Byte, d ≠ 0 → decode (.port [0x11#8 ++ d]) = .rejected (.reserved (0x11#8 ++ d)) ∧
    ∀ (s t : State) (rest : List HostInput), s.seq.phase = .done →
      s.pending = .issue (.port [0x11#8 ++ d]) :: rest → step s = .next t →
      t.result = some (.err ⟨.reservedWord, .portWord (0x11#8 ++ d)⟩)) ∧
  Reason.kind .reservedWord = .unsupportedFunction ∧
  ∀ s : State, exec .chkInit s = .next { s with chk := .val 0x00, result := some (.ok .unit) }

/-- R102. CHK.BYTE: its encoding, its whole effect where `CHK` is set (the sum modulo 256), `UnsetState` where it is not (if
the engine carries on, R151), and that the order of the bytes does not matter. -/
def Obligations.ChkByteEffect : Prop :=
  (∀ d : Byte, encode (.chkByte d) = .port [0x12#8 ++ d] ∧ decode (.port [0x12#8 ++ d]) = .instr (.chkByte d)) ∧
  (∀ (d : Byte) (s : State) (c : Byte), s.chk = .val c →
    exec (.chkByte d) s = .next { s with
      chk := .val (BitVec.ofNat 8 ((c.toNat + d.toNat) % 256))
      result := some (.ok .unit) }) ∧
  (∀ (d : Byte) (s t : State), s.chk = .unset → exec (.chkByte d) s = .next t →
    t = { s with
      result := some (.err ⟨.chkByteBeforeInit, .mnemonic .chkByte⟩)
      faultLog := s.faultLog ++ [⟨.chkByteBeforeInit, .mnemonic .chkByte⟩] }) ∧
  Reason.kind .chkByteBeforeInit = .unsetState ∧
  (∀ (ds es : List Byte) (s : State) (c : Byte), s.chk = .val c → ds.Perm es → (chkBytes ds s).chk = (chkBytes es s).chk)

/-- R103. CHK.READ: its encoding, its value where `CHK` is set, `UnsetState` where it is not (if the engine carries on, R151),
and 0 right after CHK.INIT. -/
def Obligations.ChkReadEffect : Prop :=
  encode .chkRead = .port [0x1300] ∧ decode (.port [0x1300]) = .instr .chkRead ∧
  (∀ (s : State) (c : Byte), s.chk = .val c → exec .chkRead s = .next { s with result := some (.ok (.u8 c)) }) ∧
  (∀ s t : State, s.chk = .unset → exec .chkRead s = .next t →
    t = { s with
      result := some (.err ⟨.chkReadBeforeInit, .mnemonic .chkRead⟩)
      faultLog := s.faultLog ++ [⟨.chkReadBeforeInit, .mnemonic .chkRead⟩] }) ∧
  Reason.kind .chkReadBeforeInit = .unsetState ∧
  (∀ s t : State, exec .chkInit s = .next t → exec .chkRead t = .next { t with result := some (.ok (.u8 0)) }) ∧
  (∀ s t : State, exec (.checksumPseudo 0x20 []) s = .next t → exec .chkRead t = .next { t with result := some (.ok (.u8 0x20)) })

/-- R105. `checksum` is the sum of opcode and payload modulo 256; CHECKSUM returns it and leaves it in `CHK`, in every state. -/
def Obligations.ChecksumPseudoResult : Prop :=
  (∀ (opc : Byte) (p : List Byte), (checksum opc p).toNat = (opc.toNat + (p.map BitVec.toNat).sum) % 256) ∧
  (∀ (opc : Byte) (p : List Byte), (commandPacket opc p).getD 1 0 = checksum opc p) ∧
  ∀ (opc : Byte) (p : List Byte) (s : State), exec (.checksumPseudo opc p) s =
    .next { s with chk := .val (checksum opc p), result := some (.ok (.u8 (checksum opc p))) }

/-- R106. The reply's check byte. -/
def Obligations.ReplyCheckByte : Prop :=
  (∀ data : List Byte, (dsum data).toNat = (data.map BitVec.toNat).sum % 256) ∧ dsum [] = 0

/-- 41_checksum.md R107: the checksum sees no reordering, the CRC does. The CRC values rest on decision D1. -/
def Obligations.ChecksumMissesReordering : Prop :=
  (∀ (opc : Byte) (p q : List Byte), p.Perm q → checksum opc p = checksum opc q) ∧
  crc32 Config.params [0x00, 0x01] ≠ crc32 Config.params [0x01, 0x00]

/-! ### Errors -/

/-- The codes of 60_exceptions.md R150 are 1 to 7 in its order, so that kinds are distinct, and every one of the 18 reasons has
the kind that its place in R150's table gives it. -/
def Obligations.ErrorKindsAndCodes : Prop :=
  [ErrKind.portError, .argumentError, .timeoutError, .protocolError, .allocationError, .unsupportedFunction,
    .unsetState].map ErrKind.code = [1, 2, 3, 4, 5, 6, 7] ∧
  (∀ k l : ErrKind, k.code = l.code → k = l) ∧
  (∀ r : Reason, r.kind ≠ .allocationError) ∧
  ([Reason.transportNotOpen, .linkNotActive, .commandWrite, .ackWrite].all fun r => r.kind == .portError) = true ∧
  ([Reason.emptyRange, .rangeOutside].all fun r => r.kind == .argumentError) = true ∧
  ([Reason.noAckNak].all fun r => r.kind == .timeoutError) = true ∧
  ([Reason.deviceNaked, .shortHeader, .lengthBelowTwo, .shortData, .checkMismatch, .notFourBytes].all
    fun r => r.kind == .protocolError) = true ∧
  ([Reason.reservedWord].all fun r => r.kind == .unsupportedFunction) = true ∧
  ([Reason.crcByteBeforeInit, .crcReadBeforeInit, .chkByteBeforeInit, .chkReadBeforeInit].all
    fun r => r.kind == .unsetState) = true

/-- The model's choice (entry 6; R151 leaves it open whether the engine carries on): an operation on an unset register and a
reserved port word end with their error in the result and in the fault log, and the machine goes on with nothing else changed. -/
def Obligations.PortFaultsCarryOn : Prop :=
  (∀ (d : Byte) (s : State), s.acc = .unset → exec (.crcByte d) s = .next { s with
    result := some (.err ⟨.crcByteBeforeInit, .mnemonic .crcByte⟩)
    faultLog := s.faultLog ++ [⟨.crcByteBeforeInit, .mnemonic .crcByte⟩] }) ∧
  (∀ s : State, s.acc = .unset → exec .crcRead s = .next { s with
    result := some (.err ⟨.crcReadBeforeInit, .mnemonic .crcRead⟩)
    faultLog := s.faultLog ++ [⟨.crcReadBeforeInit, .mnemonic .crcRead⟩] }) ∧
  (∀ (d : Byte) (s : State), s.chk = .unset → exec (.chkByte d) s = .next { s with
    result := some (.err ⟨.chkByteBeforeInit, .mnemonic .chkByte⟩)
    faultLog := s.faultLog ++ [⟨.chkByteBeforeInit, .mnemonic .chkByte⟩] }) ∧
  (∀ s : State, s.chk = .unset → exec .chkRead s = .next { s with
    result := some (.err ⟨.chkReadBeforeInit, .mnemonic .chkRead⟩)
    faultLog := s.faultLog ++ [⟨.chkReadBeforeInit, .mnemonic .chkRead⟩] }) ∧
  (∀ (s : State) (w : PortWord) (rest : List HostInput), ¬ AssignedPortWord w → s.seq.phase = .done →
    s.pending = .issue (.port [w]) :: rest → step s = .next { s with
      pending := rest
      result := some (.err ⟨.reservedWord, .portWord w⟩)
      faultLog := s.faultLog ++ [⟨.reservedWord, .portWord w⟩] })

/-- 60_exceptions.md R151: no operation clears the fault log, and what a step adds has code 6 or 7. Only the start of a session
(R170) empties it. It holds in every state, in the middle of an exchange too. -/
def Obligations.FaultLogOnlyGrows : Prop :=
  ∀ s t : State, step s = .next t →
    (∃ es, t.faultLog = s.faultLog ++ es ∧ ∀ e ∈ es, e.code = 6 ∨ e.code = 7) ∨
    (s.seq.phase = .done ∧ (∃ rest, s.pending = .sessionStart :: rest) ∧ t.faultLog = [])

/-! ### CRC32.DEV: preconditions and arguments -/

/-- R124. The range predicates in Nat; a range that would pass `0xFFFFFFFF` is in neither region, for the sizes that a session
can hold (`SessionOk`: the bound on RAM is entry 20). -/
def Obligations.RangePredicates : Prop :=
  (∀ (x : Session) (start count : Nat),
    (inFlash Config.params x start count = true ↔ 0x00000000 ≤ start ∧ start + count ≤ 0x00000000 + x.flashSize) ∧
    (inRam Config.params x start count = true ↔ 0x20000000 ≤ start ∧ start + count ≤ 0x20000000 + x.ramSize)) ∧
  ∀ (x : Session) (start count : Nat), SessionOk x → 0xFFFFFFFF < start + count - 1 →
    inFlash Config.params x start count = false ∧ inRam Config.params x start count = false

/-- R122, R123, R125. The errors of steps 1 and 2, in their order: the transport, the link, the empty range, the range. The
whole state is given: nothing is sent, and the phase is Done. -/
def Obligations.CrcDevPreconditions : Prop :=
  Reason.kind .transportNotOpen = .portError ∧ Reason.kind .linkNotActive = .portError ∧
  Reason.kind .emptyRange = .argumentError ∧ Reason.kind .rangeOutside = .argumentError ∧
  ∀ (start count : Word) (s : State),
    exec (.crc32Dev start count) s =
      if s.session.portOpen = false then
        .next { s with seq := { s.seq with phase := .done }, result := some (.err ⟨.transportNotOpen, .none⟩) }
      else if s.session.linkActive = false then
        .next { s with seq := { s.seq with phase := .done }, result := some (.err ⟨.linkNotActive, .none⟩) }
      else if count = 0 then
        .next { s with seq := { s.seq with phase := .done }, result := some (.err ⟨.emptyRange, .range start.toNat 0⟩) }
      else if ¬ (start.toNat + count.toNat ≤ s.session.flashSize) ∧
          ¬ (0x20000000 ≤ start.toNat ∧ start.toNat + count.toNat ≤ 0x20000000 + s.session.ramSize) then
        .next { s with
          seq := { s.seq with phase := .done }
          result := some (.err ⟨.rangeOutside, .range start.toNat count.toNat⟩) }
      else .next (exchange Config.params start count s)

/-- R126. CRC32.DEV sends its command for ranges over the bootloader's protected memory, all of RAM among them. -/
def Obligations.ProtectedMemoryAdmitted : Prop :=
  ∀ (start count : Word) (s : State), s.session.portOpen = true → s.session.linkActive = true → count ≠ 0 →
    0x1000 ≤ s.session.ramSize →
    (start.toNat = Config.bootWork.first ∧ start.toNat + count.toNat = Config.bootWork.last + 1) ∨
      (start.toNat = Config.bootStack.first ∧ start.toNat + count.toNat = Config.bootStack.last + 1) ∨
      (start.toNat = 0x20000000 ∧ count.toNat = s.session.ramSize) →
    ∃ t ok more, exec (.crc32Dev start count) s = .next t ∧
      t.link.sent = s.link.sent ++ ⟨crc32Packet Config.params start count, ok⟩ :: more

/-! ### CRC32.DEV: the exchange -/

/-- R127. An admitted CRC32.DEV hands the 15-byte packet to the transport in a single write; if that write fails, the outcome is
`PortError`, and nothing was read and nothing more written. -/
def Obligations.CommandSentOnce : Prop :=
  (∀ (start count : Word) (s : State), Admitted start count s →
    ∃ t more, exec (.crc32Dev start count) s = .next t ∧
      t.link.sent = s.link.sent ++ ⟨crc32Packet Config.params start count, s.link.nextAccept⟩ :: more ∧
      ∀ r ∈ more, r.bytes.length = 1) ∧
  (∀ (start count : Word) (s : State), Admitted start count s → s.link.nextAccept = false →
    ∃ t, exec (.crc32Dev start count) s = .next t ∧
      t.link.sent = s.link.sent ++ [⟨crc32Packet Config.params start count, false⟩] ∧
      t.link.nReads = s.link.nReads ∧ t.link.reads = s.link.reads ∧ t.seq.phase = .done ∧
      t.result = some (.err ⟨.commandWrite, .none⟩)) ∧
  Reason.kind .commandWrite = .portError ∧ ∀ start count : Word, (crc32Packet Config.params start count).length = 15

/-- R128. `RecvAck(k)`: at most `k + 1` reads of one byte; a byte that is neither ACK nor NAK, or none, uses its attempt up and
is consumed. CRC32.DEV calls it with 5, and six failed attempts end it with `TimeoutError`. -/
def Obligations.RecvAckBudget : Prop :=
  (∀ (p : Params) (k : Nat) (s : State) (junk rest : List (List Byte)) (x : List Byte),
    p.ackByte ≠ p.nakByte → s.link.reads = junk ++ x :: rest → (∀ y ∈ junk, NoAnswer p y) → junk.length ≤ k →
    ∀ t : State, t = { s with
        seq := { s.seq with attempts := s.seq.attempts + (junk.length + 1) }
        link := { s.link with reads := rest, nReads := s.link.nReads + (junk.length + 1) } } →
      (x.take 1 = [p.ackByte] → recvAck p (k + 1) s = (.ack, t)) ∧
      (x.take 1 = [p.nakByte] → recvAck p (k + 1) s = (.nak, t)) ∧
      (NoAnswer p x → junk.length = k → recvAck p (k + 1) s = (.timeout, t))) ∧
  Config.params.crcAckRetries = 5 ∧
  ∀ (start count : Word) (s : State) (junk rest : List (List Byte)), Admitted start count s →
    s.link.nextAccept = true → s.link.reads = junk ++ rest → junk.length = 6 → (∀ y ∈ junk, NoAnswer Config.params y) →
    ∃ t, exec (.crc32Dev start count) s = .next t ∧ t.result = some (.err ⟨.noAckNak, .attempts 6⟩) ∧
      Reason.kind .noAckNak = .timeoutError ∧ t.seq.phase = .done ∧ t.link.reads = rest ∧
      t.link.sent = s.link.sent ++ [⟨crc32Packet Config.params start count, true⟩]

/-- R129. A NAK answer to the command, within the budget, ends CRC32.DEV with `ProtocolError`; the host sends nothing more. -/
def Obligations.DeviceNakEndsExchange : Prop :=
  Config.params.ackByte ≠ Config.params.nakByte ∧
  ∀ (start count : Word) (s : State) (junk rest : List (List Byte)) (x : List Byte), Admitted start count s →
    s.link.nextAccept = true → s.link.reads = junk ++ x :: rest → junk.length ≤ 5 →
    (∀ y ∈ junk, NoAnswer Config.params y) → x.take 1 = [Config.params.nakByte] →
    ∃ t, exec (.crc32Dev start count) s = .next t ∧ t.result = some (.err ⟨.deviceNaked, .replyBytes []⟩) ∧
      Reason.kind .deviceNaked = .protocolError ∧ t.seq.phase = .done ∧ t.link.reads = rest ∧
      t.link.sent = s.link.sent ++ [⟨crc32Packet Config.params start count, true⟩]

/-- R134. The device ACKs within the budget and a whole reply follows, split in any way, with no more empty reads than the
budget: the check byte is judged before the length, a bad reply is NAKed (these clauses are parts of R131 and R132), a good
one is ACKed, and then the outcome is the big-endian reading of the four bytes. -/
def Obligations.WholeReplyJudged : Prop :=
  Reason.kind .checkMismatch = .protocolError ∧ Reason.kind .notFourBytes = .protocolError ∧
  Reason.kind .ackWrite = .portError ∧
  ∀ (start count : Word) (s : State) (rlen rcks : Byte) (data : List Byte) (b : Bool) (ws : List Bool),
    Admitted start count s → s.link.writes = true :: b :: ws → rlen.toNat = 2 + data.length →
    SpellsReply Config.params (rlen :: rcks :: data) s.link.reads →
    ∃ t, exec (.crc32Dev start count) s = .next t ∧ t.seq.phase = .done ∧ t.seq.rx = rlen :: rcks :: data ∧
      t.link.writes = ws ∧
      t.link.sent = s.link.sent ++
        [⟨crc32Packet Config.params start count, true⟩,
          ⟨[if dsum data = rcks ∧ data.length = 4 then Config.params.ackByte else Config.params.nakByte], b⟩] ∧
      t.result = some (
        if dsum data ≠ rcks then .err ⟨.checkMismatch, .replyBytes (rlen :: rcks :: data)⟩
        else if data.length ≠ 4 then .err ⟨.notFourBytes, .replyBytes (rlen :: rcks :: data)⟩
        else if b then .ok (.u32 (fromBe32 data))
        else .err ⟨.ackWrite, .none⟩)

/-- The replies of 42_crc32_command.md R130 to R132 that are cut off: a short header, an `RLEN` below 2, short data. Each ends in
one NAK and `ProtocolError`, whatever becomes of the NAK's write. That the bytes of the read cut short are not in `rx` is
the model's reading (entry 8). -/
def Obligations.BrokenRepliesNaked : Prop :=
  ∀ (start count : Word) (s : State) (empties : Nat) (hdr dat rest : List (List Byte)) (rlen rcks : Byte) (b : Bool)
    (ws : List Bool) (why : Reason) (rx : List Byte),
    Admitted start count s → s.link.writes = true :: b :: ws → empties ≤ 5 →
    s.link.reads = List.replicate empties [] ++ [[Config.params.ackByte]] ++ hdr ++ dat ++ rest →
    (hdr.flatten.length < 2 ∧ hdr.count [] = Config.params.crcDataRetries + 1 ∧ hdr.getLast? = some [] ∧
        why = .shortHeader ∧ rx = []) ∨
      (hdr.flatten = [rlen, rcks] ∧ hdr.count [] ≤ Config.params.crcDataRetries ∧ rlen.toNat < 2 ∧
        why = .lengthBelowTwo ∧ rx = [rlen, rcks]) ∨
      (hdr.flatten = [rlen, rcks] ∧ dat.flatten.length < rlen.toNat - 2 ∧
        (hdr ++ dat).count [] = Config.params.crcDataRetries + 1 ∧ dat.getLast? = some [] ∧
        why = .shortData ∧ rx = [rlen, rcks]) →
    ∃ t, exec (.crc32Dev start count) s = .next t ∧ t.seq.phase = .done ∧
      t.result = some (.err ⟨why, .replyBytes rx⟩) ∧ why.kind = .protocolError ∧
      t.link.sent = s.link.sent ++
        [⟨crc32Packet Config.params start count, true⟩, ⟨[Config.params.nakByte], b⟩]

/-- R131. How an admitted CRC32.DEV can end, whatever the transport answers: the command's write fails; no answer or a NAK to the
command, and nothing more sent; a failure of step 5, with one NAK sent and `ProtocolError`, whatever becomes of the NAK; the
host's ACK of a good reply fails; or the value of a good reply. There is no retry: the command was sent once. (The cases
outside step 5 are parts of R127, R128, R129, R134 and R135.) -/
def Obligations.ExchangeOutcomes : Prop :=
  ∀ (start count : Word) (s : State), Admitted start count s →
    ∃ t sent, exec (.crc32Dev start count) s = .next t ∧ t.seq.phase = .done ∧ t.link.sent = s.link.sent ++ sent ∧
      ((sent = [⟨crc32Packet Config.params start count, false⟩] ∧ t.result = some (.err ⟨.commandWrite, .none⟩)) ∨
       (sent = [⟨crc32Packet Config.params start count, true⟩] ∧
          (t.result = some (.err ⟨.noAckNak, .attempts 6⟩) ∨ t.result = some (.err ⟨.deviceNaked, .replyBytes []⟩))) ∨
       (∃ b why, sent = [⟨crc32Packet Config.params start count, true⟩, ⟨[Config.params.nakByte], b⟩] ∧
          t.result = some (.err ⟨why, .replyBytes t.seq.rx⟩) ∧ why.kind = .protocolError ∧
          why ∈ [Reason.shortHeader, .lengthBelowTwo, .shortData, .checkMismatch, .notFourBytes]) ∨
       (∃ data, data.length = 4 ∧ t.seq.rx = replyPacket data ∧
          sent = [⟨crc32Packet Config.params start count, true⟩, ⟨[Config.params.ackByte], false⟩] ∧
          t.result = some (.err ⟨.ackWrite, .none⟩)) ∨
       (∃ data, data.length = 4 ∧ t.seq.rx = replyPacket data ∧
          sent = [⟨crc32Packet Config.params start count, true⟩, ⟨[Config.params.ackByte], true⟩] ∧
          t.result = some (.ok (.u32 (fromBe32 data)))))

/-- R135. What CRC32.DEV sends at most, in every state: nothing if it is not admitted; else the command and then at most one
host ACK or NAK byte. -/
def Obligations.BytesSentAtMost : Prop :=
  ∀ (start count : Word) (s : State), ∃ t, exec (.crc32Dev start count) s = .next t ∧
    (¬ Admitted start count s → t.link.sent = s.link.sent) ∧
    (Admitted start count s → ∃ ok more,
      t.link.sent = s.link.sent ++ ⟨crc32Packet Config.params start count, ok⟩ :: more ∧ more.length ≤ 1 ∧
      ∀ r ∈ more, r.bytes = [Config.params.ackByte] ∨ r.bytes = [Config.params.nakByte])

/-- R136. CRC32.DEV in every state: it always ends, with phase Done; of the block it writes only the sequencer's fields (its
outcome goes back in the result, and the transport moves on); every byte of device memory reads as before; and it reads of
the state nothing but the four session fields, the transport and, for the phase it leaves, the sequencer. -/
def Obligations.CrcDevFrame : Prop :=
  ∀ (start count : Word) (s : State), ∃ t, exec (.crc32Dev start count) s = .next t ∧
    t.seq.phase = .done ∧ t.acc = s.acc ∧ t.chk = s.chk ∧ t.session = s.session ∧ t.pending = s.pending ∧
    t.faultLog = s.faultLog ∧ (∀ a : Nat, t.dmem.read a = s.dmem.read a) ∧
    ∀ (acc : Reg 32) (chk : Reg 8) (rev : Revision) (m : Memory) (q : List HostInput) (log : List ErrInfo)
        (r : Option OpResult),
      ∃ u, exec (.crc32Dev start count)
          { s with acc := acc, chk := chk, session := { s.session with revision := rev }, dmem := m, pending := q,
                   faultLog := log, result := r } =
        .next u ∧ u.seq = t.seq ∧ u.link = t.link ∧ u.result = t.result

/-- R177. Every CRC32.DEV ends, within `6 + 255 + (CRC_DATA_RETRIES + 1)` reads and 2 writes, whatever the transport answers. -/
def Obligations.ExchangeIsBounded : Prop :=
  ∀ (start count : Word) (s : State), ∃ t, exec (.crc32Dev start count) s = .next t ∧ t.seq.phase = .done ∧
    t.link.nReads ≤ s.link.nReads + (6 + 255 + (Config.params.crcDataRetries + 1)) ∧
    t.link.sent.length ≤ s.link.sent.length + 2

/-- The sequencer one read at a time (10_state.md R29) does what the pseudocode of 42_crc32_command.md R121 does at once: from
the state after the command was accepted, stepping the machine through the exchange reaches exactly the state that `exec`
gives, within the bound of R177, and takes no input on the way. -/
def Obligations.SequencerRefinesExchange : Prop :=
  ∀ (start count : Word) (s : State), Admitted start count s → s.link.nextAccept = true →
    ∃ k t, k ≤ 6 + 255 + (Config.params.crcDataRetries + 1) ∧ exec (.crc32Dev start count) s = .next t ∧
      Sys2Proof.core.run k (sendCommand Config.params start count s).2 = .next t ∧
      ∀ j < k, ∃ u : State, Sys2Proof.core.run j (sendCommand Config.params start count s).2 = .next u ∧
        u.seq.phase = .awaitingResponse ∧ u.pending = s.pending

/-! ### The device's side and VERIFY -/

/-- With a conforming device (42_crc32_command.md R137, in the model's form of entry 24) and a transport that takes the host's
ACK, an admitted CRC32.DEV returns the CRC-32 of the bytes that device memory holds in the range. So one issued after a command
that completed sees that command's memory effect (20_memory.md R48, 70_reset_and_hazards.md R175), whatever the session's sizes
were when it took effect and whatever came in between, a session start too (which keeps device memory, entry 10), but for
another command's memory effect. That such an effect is an input is entry 13. -/
def Obligations.ConformingDeviceAnswers : Prop :=
  (∀ (start count : Word) (s : State) (ws : List Bool), Admitted start count s →
    DeviceConforms Config.params start count s → s.link.writes = true :: true :: ws →
    ∃ t, exec (.crc32Dev start count) s = .next t ∧
      t.result = some (.ok (.u32 (crc32 Config.params (s.dmem.readRange start.toNat count.toNat))))) ∧
  ∀ (first start count : Word) (data : List Byte) (i : Nat) (between rest : List HostInput) (s u : State) (ws : List Bool),
    s.seq.phase = .done → s.dmem.wf = true → first.toNat + data.length ≤ 2 ^ 32 →
    s.pending = .deviceWrite first data ::
      (between ++ .issue (.packet (crc32Packet Config.params start count)) :: rest) →
    (∀ x ∈ between, ∀ a bytes, x ≠ .deviceWrite a bytes) → Sys2Proof.core.run (between.length + 1) s = .next u →
    start.toNat = first.toNat + i → i + count.toNat ≤ data.length → Admitted start count u →
    DeviceConforms Config.params start count u → u.link.writes = true :: true :: ws →
    ∃ t, step u = .next t ∧ t.result = some (.ok (.u32 (crc32 Config.params ((data.drop i).take count.toNat))))

/-- R139. VERIFY issues CRC32.DEV over the image's length and compares: an error is returned as it is, an equal CRC is a pass,
another a mismatch; neither `ACC` nor `CHK` is touched. -/
def Obligations.VerifyComparesCrcs : Prop :=
  ∀ (img : List Byte) (start : Word) (s t : State) (rest : List HostInput),
    s.seq.phase = .done → s.pending = .verify img start :: rest → img.length < 2 ^ 32 →
    exec (.crc32Dev start (BitVec.ofNat 32 img.length)) { s with pending := rest } = .next t →
    ∃ u, step s = .next u ∧ u.acc = s.acc ∧ u.chk = s.chk ∧ u.link = t.link ∧ u.pending = rest ∧
      (∀ e, t.result = some (.err e) → u.result = some (.err e)) ∧
      (∀ c, t.result = some (.ok (.u32 c)) →
        u.result = some (.ok (.verdict (if c = crc32 Config.params img then .pass else .mismatch))))

/-- R140. With a conforming device (in the model's form of entry 24) whose memory holds the image, VERIFY returns pass unless an
error ends it first, and no error does if CRC32.DEV is admitted and the host's ACK is taken. A pass does not show that the
contents are equal: distinct byte sequences of equal length can have the same CRC-32 (which rests on decision D1). -/
def Obligations.VerifyPassesOnEqualContents : Prop :=
  (∀ (img : List Byte) (start : Word) (s : State) (rest : List HostInput),
    s.seq.phase = .done → s.pending = .verify img start :: rest → img.length < 2 ^ 32 →
    DeviceConforms Config.params start (BitVec.ofNat 32 img.length) s →
    s.dmem.readRange start.toNat img.length = img →
    ∃ t, step s = .next t ∧
      (t.result = some (.ok (.verdict .pass)) ∨ ∃ e, t.result = some (.err e)) ∧
      (∀ ws, Admitted start (BitVec.ofNat 32 img.length) s → s.link.writes = true :: true :: ws →
        t.result = some (.ok (.verdict .pass)))) ∧
  ∃ a b : List Byte, a ≠ b ∧ a.length = b.length ∧ crc32 Config.params a = crc32 Config.params b

/-- The model's reading (entry 19): VERIFY of an image that would pass the 32-bit address space, or that is longer than a u32 can
count, is refused as a range by the Nat arithmetic of 42_crc32_command.md R124, and nothing is sent. The bound on RAM in
`SessionOk` is entry 20. -/
def Obligations.VerifyRefusesOversizedImage : Prop :=
  ∀ (img : List Byte) (start : Word) (s : State) (rest : List HostInput),
    s.seq.phase = .done → s.pending = .verify img start :: rest →
    2 ^ 32 < start.toNat + img.length ∨ 2 ^ 32 ≤ img.length →
    s.session.portOpen = true → s.session.linkActive = true → SessionOk s.session →
    step s = .next { s with
      pending := rest
      result := some (.err ⟨.rangeOutside, .range start.toNat img.length⟩) }

/-! ### Inputs of other layers -/

/-- R171. The device's `reset()` command reaches the block as `linkActive` becoming false (the packet itself is refused, R70):
`ACC` and `CHK` keep their values, and the next CRC32.DEV raises `PortError`. -/
def Obligations.DeviceResetDropsLink : Prop :=
  ∀ (start count : Word) (s : State) (rest : List HostInput),
    s.seq.phase = .done → s.session.portOpen = true →
    s.pending = .session (.linkActive false) :: .issue (.packet (crc32Packet Config.params start count)) :: rest →
    Sys2Proof.core.run 2 s = .next { s with
      session := { s.session with linkActive := false }
      pending := rest
      result := some (.err ⟨.linkNotActive, .none⟩) }

/-- 10_state.md R26: what a session input changes. The flash size is the low byte of the word read times 4096. That a RAM size is
taken exactly if RAM stays within the 32-bit address space, and is a fault otherwise, is the model's choice, entry 20. -/
def Obligations.SessionInputsSetFields : Prop :=
  ∀ (s : State) (rest : List HostInput), s.seq.phase = .done →
    (∀ b, s.pending = .session (.portOpen b) :: rest →
      step s = .next { s with pending := rest, session := { s.session with portOpen := b } }) ∧
    (∀ b, s.pending = .session (.linkActive b) :: rest →
      step s = .next { s with pending := rest, session := { s.session with linkActive := b } }) ∧
    (∀ v : Word, s.pending = .session (.flashSizeWord v) :: rest →
      step s = .next { s with pending := rest, session := { s.session with flashSize := v.toNat % 256 * 4096 } }) ∧
    (∀ n, n ≤ 0xE0000000 → s.pending = .session (.ramSize n) :: rest →
      step s = .next { s with pending := rest, session := { s.session with ramSize := n } }) ∧
    (∀ n, 0xE0000000 < n → s.pending = .session (.ramSize n) :: rest → step s = .fault (.ramSizeOutside n)) ∧
    (∀ r, s.pending = .session (.revision r) :: rest →
      step s = .next { s with pending := rest, session := { s.session with revision := r } })

/-- What completed commands of other layers left in device memory (20_memory.md R48; that it comes as an input is the model's
choice, entry 13): bytes at any 32-bit addresses read back, whatever the session's sizes are, every other address reads as
before, and nothing else changes; bytes past the last address are a fault, since there is no such memory (10_state.md R31).
Device memory is in its canonical form, as the invariant says. No other step, in the middle of an exchange too, changes what
device memory holds (20_memory.md R44). -/
def Obligations.DeviceWritesReadBack : Prop :=
  (∀ (s : State) (start : Word) (data : List Byte) (rest : List HostInput),
    s.seq.phase = .done → s.dmem.wf = true → s.pending = .deviceWrite start data :: rest →
    if start.toNat + data.length ≤ 2 ^ 32 then
      ∃ t, step s = .next t ∧ t = { s with pending := rest, dmem := t.dmem } ∧
        (∀ i (h : i < data.length), t.dmem.read (start.toNat + i) = data[i]) ∧
        (∀ a, a < start.toNat ∨ start.toNat + data.length ≤ a → t.dmem.read a = s.dmem.read a) ∧
        t.dmem.readRange start.toNat data.length = data
    else step s = .fault (.deviceAddressOutside start.toNat data.length)) ∧
  ∀ s t : State, step s = .next t →
    t.dmem = s.dmem ∨ (s.seq.phase = .done ∧ ∃ start data rest, s.pending = .deviceWrite start data :: rest)

/-! ### The invariant -/

/-- The invariant holds right after reset (the flash bound in it is 10_state.md R26, the RAM bound entry 20). -/
def Obligations.InvariantAtReset : Prop := Inv State.reset

/-- Every step keeps the invariant: no exchange is left open, device memory stays canonical, the flash size stays as 10_state.md
R26 says and the RAM size as entry 20 says, and only codes 6 and 7 are in the fault log. -/
def Obligations.StepKeepsInvariant : Prop :=
  ∀ s t : State, Inv s → step s = .next t → Inv t

/-! ### Other stops -/

/-- The model's choice (entries 15 and 16): a packet too short to hold an opcode byte is refused, and so is every group of port
words that is neither one word nor an expansion of 30_encoding.md R72. -/
def Obligations.OtherOperationsRefused : Prop :=
  (∀ (s : State) (bytes : List Byte) (rest : List HostInput), bytes.length < 3 → s.seq.phase = .done →
    s.pending = .issue (.packet bytes) :: rest → step s = .refused .truncatedPacket) ∧
  ∀ (s : State) (words : List PortWord) (rest : List HostInput), words.length ≠ 1 →
    (∀ bytes, words ≠ expandCrc32 bytes) → (∀ opc bytes, words ≠ expandChecksum opc bytes) →
    s.seq.phase = .done → s.pending = .issue (.port words) :: rest → step s = .refused .notOneOperation
end

