-- ==== Sys2Proof/Laws/Encoding.lean ====
section
/-! SUPPORT. The fields of a port word and the bytes of a u32, as arithmetic; what `takeOperands` reads back. -/

namespace Sys2Proof

open Machine

theorem toNat_opField (w : PortWord) : (opField w).toNat = w.toNat / 256 := by
  have := w.isLt
  simp only [opField, BitVec.extractLsb'_toNat, Nat.shiftRight_eq_div_pow]
  omega

theorem toNat_byteField (w : PortWord) : (byteField w).toNat = w.toNat % 256 := by
  simp [byteField, BitVec.extractLsb'_toNat]

theorem toNat_portWord (op d : Byte) : (portWord op d).toNat = op.toNat * 256 + d.toNat := by
  have := op.isLt
  have := d.isLt
  simp only [portWord, BitVec.toNat_ofNat]
  omega

@[simp] theorem opField_portWord (op d : Byte) : opField (portWord op d) = op := by
  have := d.isLt
  apply BitVec.eq_of_toNat_eq
  rw [toNat_opField, toNat_portWord]
  omega

@[simp] theorem byteField_portWord (op d : Byte) : byteField (portWord op d) = d := by
  have := d.isLt
  apply BitVec.eq_of_toNat_eq
  rw [toNat_byteField, toNat_portWord]
  omega

@[simp] theorem portWord_fields (w : PortWord) : portWord (opField w) (byteField w) = w := by
  apply BitVec.eq_of_toNat_eq
  rw [toNat_portWord, toNat_opField, toNat_byteField]
  omega

/-- A port word is determined by its two fields. -/
theorem eq_portWord_iff (w : PortWord) (op d : Byte) : w = portWord op d ↔ opField w = op ∧ byteField w = d := by
  constructor
  · rintro rfl
    simp
  · rintro ⟨rfl, rfl⟩
    simp

/-- The numeric form of a port word is the concatenation of its fields. -/
theorem portWord_eq_append (op d : Byte) : portWord op d = op ++ d := by
  have := d.isLt
  apply BitVec.eq_of_toNat_eq
  rw [toNat_portWord]
  refine Eq.trans ?_ (BitVec.toNat_append (x := op) (y := d)).symm
  rw [Nat.shiftLeft_eq, Nat.mul_comm, ← Nat.two_pow_add_eq_or_of_lt this]

theorem toNat_fromBe32 (b0 b1 b2 b3 : Byte) : (fromBe32 [b0, b1, b2, b3]).toNat =
    b0.toNat * 2 ^ 24 + b1.toNat * 2 ^ 16 + b2.toNat * 2 ^ 8 + b3.toNat := by
  have := b0.isLt
  have := b1.isLt
  have := b2.isLt
  have := b3.isLt
  simp only [fromBe32, BitVec.toNat_ofNat]
  omega

theorem length_be32 (v : Word) : (be32 v).length = 4 := rfl

/-- The operands of an expansion are read back in order. -/
theorem takeOperands_map (op : Byte) (last : PortWord) (bs : List Byte) :
    takeOperands op last (bs.map (portWord op) ++ [last]) = some bs := by
  induction bs with
  | nil => simp [takeOperands]
  | cons b bs ih =>
    cases h : bs.map (portWord op) ++ [last] with
    | nil => simp at h
    | cons x xs =>
      simp only [List.map_cons, List.cons_append, h, takeOperands, opField_portWord, byteField_portWord, if_true]
      rw [← h, ih]
      rfl

/-- Only the words of an expansion give operands. -/
theorem takeOperands_sound (op : Byte) (last : PortWord) (ws : List PortWord) (bs : List Byte)
    (h : takeOperands op last ws = some bs) : ws = bs.map (portWord op) ++ [last] := by
  fun_induction takeOperands op last ws generalizing bs with
  | case1 => cases h
  | case2 => cases h; rfl
  | case3 => cases h
  | case4 w ws hne hop ih =>
    obtain ⟨cs, hc, rfl⟩ := Option.map_eq_some_iff.mp h
    rw [ih cs hc, List.map_cons, List.cons_append, ← hop, portWord_fields]
  | case5 => cases h

end Sys2Proof
end

