-- ==== Sys2Proof/Laws/State.lean ====
section
/-! SUPPORT. One lemma per field per named update of the state, true by rfl, so that no proof unfolds a record update. -/

namespace Sys2Proof.Machine

/-! ### setAcc -/

@[simp] theorem State.setAcc_acc (s : State) (v : Word) : (s.setAcc v).acc = .val v := rfl
@[simp] theorem State.setAcc_chk (s : State) (v : Word) : (s.setAcc v).chk = s.chk := rfl
@[simp] theorem State.setAcc_seq (s : State) (v : Word) : (s.setAcc v).seq = s.seq := rfl
@[simp] theorem State.setAcc_session (s : State) (v : Word) : (s.setAcc v).session = s.session := rfl
@[simp] theorem State.setAcc_link (s : State) (v : Word) : (s.setAcc v).link = s.link := rfl
@[simp] theorem State.setAcc_dmem (s : State) (v : Word) : (s.setAcc v).dmem = s.dmem := rfl
@[simp] theorem State.setAcc_pending (s : State) (v : Word) : (s.setAcc v).pending = s.pending := rfl
@[simp] theorem State.setAcc_result (s : State) (v : Word) : (s.setAcc v).result = s.result := rfl
@[simp] theorem State.setAcc_faultLog (s : State) (v : Word) : (s.setAcc v).faultLog = s.faultLog := rfl

/-! ### setChk -/

@[simp] theorem State.setChk_acc (s : State) (v : Byte) : (s.setChk v).acc = s.acc := rfl
@[simp] theorem State.setChk_chk (s : State) (v : Byte) : (s.setChk v).chk = .val v := rfl
@[simp] theorem State.setChk_seq (s : State) (v : Byte) : (s.setChk v).seq = s.seq := rfl
@[simp] theorem State.setChk_session (s : State) (v : Byte) : (s.setChk v).session = s.session := rfl
@[simp] theorem State.setChk_link (s : State) (v : Byte) : (s.setChk v).link = s.link := rfl
@[simp] theorem State.setChk_dmem (s : State) (v : Byte) : (s.setChk v).dmem = s.dmem := rfl
@[simp] theorem State.setChk_pending (s : State) (v : Byte) : (s.setChk v).pending = s.pending := rfl
@[simp] theorem State.setChk_result (s : State) (v : Byte) : (s.setChk v).result = s.result := rfl
@[simp] theorem State.setChk_faultLog (s : State) (v : Byte) : (s.setChk v).faultLog = s.faultLog := rfl

/-! ### setSeq -/

@[simp] theorem State.setSeq_acc (s : State) (q : Seq) : (s.setSeq q).acc = s.acc := rfl
@[simp] theorem State.setSeq_chk (s : State) (q : Seq) : (s.setSeq q).chk = s.chk := rfl
@[simp] theorem State.setSeq_seq (s : State) (q : Seq) : (s.setSeq q).seq = q := rfl
@[simp] theorem State.setSeq_session (s : State) (q : Seq) : (s.setSeq q).session = s.session := rfl
@[simp] theorem State.setSeq_link (s : State) (q : Seq) : (s.setSeq q).link = s.link := rfl
@[simp] theorem State.setSeq_dmem (s : State) (q : Seq) : (s.setSeq q).dmem = s.dmem := rfl
@[simp] theorem State.setSeq_pending (s : State) (q : Seq) : (s.setSeq q).pending = s.pending := rfl
@[simp] theorem State.setSeq_result (s : State) (q : Seq) : (s.setSeq q).result = s.result := rfl
@[simp] theorem State.setSeq_faultLog (s : State) (q : Seq) : (s.setSeq q).faultLog = s.faultLog := rfl

/-! ### setLink -/

@[simp] theorem State.setLink_acc (s : State) (l : Link) : (s.setLink l).acc = s.acc := rfl
@[simp] theorem State.setLink_chk (s : State) (l : Link) : (s.setLink l).chk = s.chk := rfl
@[simp] theorem State.setLink_seq (s : State) (l : Link) : (s.setLink l).seq = s.seq := rfl
@[simp] theorem State.setLink_session (s : State) (l : Link) : (s.setLink l).session = s.session := rfl
@[simp] theorem State.setLink_link (s : State) (l : Link) : (s.setLink l).link = l := rfl
@[simp] theorem State.setLink_dmem (s : State) (l : Link) : (s.setLink l).dmem = s.dmem := rfl
@[simp] theorem State.setLink_pending (s : State) (l : Link) : (s.setLink l).pending = s.pending := rfl
@[simp] theorem State.setLink_result (s : State) (l : Link) : (s.setLink l).result = s.result := rfl
@[simp] theorem State.setLink_faultLog (s : State) (l : Link) : (s.setLink l).faultLog = s.faultLog := rfl

/-! ### setSession -/

@[simp] theorem State.setSession_acc (s : State) (x : Session) : (s.setSession x).acc = s.acc := rfl
@[simp] theorem State.setSession_chk (s : State) (x : Session) : (s.setSession x).chk = s.chk := rfl
@[simp] theorem State.setSession_seq (s : State) (x : Session) : (s.setSession x).seq = s.seq := rfl
@[simp] theorem State.setSession_session (s : State) (x : Session) : (s.setSession x).session = x := rfl
@[simp] theorem State.setSession_link (s : State) (x : Session) : (s.setSession x).link = s.link := rfl
@[simp] theorem State.setSession_dmem (s : State) (x : Session) : (s.setSession x).dmem = s.dmem := rfl
@[simp] theorem State.setSession_pending (s : State) (x : Session) : (s.setSession x).pending = s.pending := rfl
@[simp] theorem State.setSession_result (s : State) (x : Session) : (s.setSession x).result = s.result := rfl
@[simp] theorem State.setSession_faultLog (s : State) (x : Session) : (s.setSession x).faultLog = s.faultLog := rfl

/-! ### setDmem -/

@[simp] theorem State.setDmem_acc (s : State) (m : Memory) : (s.setDmem m).acc = s.acc := rfl
@[simp] theorem State.setDmem_chk (s : State) (m : Memory) : (s.setDmem m).chk = s.chk := rfl
@[simp] theorem State.setDmem_seq (s : State) (m : Memory) : (s.setDmem m).seq = s.seq := rfl
@[simp] theorem State.setDmem_session (s : State) (m : Memory) : (s.setDmem m).session = s.session := rfl
@[simp] theorem State.setDmem_link (s : State) (m : Memory) : (s.setDmem m).link = s.link := rfl
@[simp] theorem State.setDmem_dmem (s : State) (m : Memory) : (s.setDmem m).dmem = m := rfl
@[simp] theorem State.setDmem_pending (s : State) (m : Memory) : (s.setDmem m).pending = s.pending := rfl
@[simp] theorem State.setDmem_result (s : State) (m : Memory) : (s.setDmem m).result = s.result := rfl
@[simp] theorem State.setDmem_faultLog (s : State) (m : Memory) : (s.setDmem m).faultLog = s.faultLog := rfl

/-! ### setPending -/

@[simp] theorem State.setPending_acc (s : State) (q : List HostInput) : (s.setPending q).acc = s.acc := rfl
@[simp] theorem State.setPending_chk (s : State) (q : List HostInput) : (s.setPending q).chk = s.chk := rfl
@[simp] theorem State.setPending_seq (s : State) (q : List HostInput) : (s.setPending q).seq = s.seq := rfl
@[simp] theorem State.setPending_session (s : State) (q : List HostInput) : (s.setPending q).session = s.session := rfl
@[simp] theorem State.setPending_link (s : State) (q : List HostInput) : (s.setPending q).link = s.link := rfl
@[simp] theorem State.setPending_dmem (s : State) (q : List HostInput) : (s.setPending q).dmem = s.dmem := rfl
@[simp] theorem State.setPending_pending (s : State) (q : List HostInput) : (s.setPending q).pending = q := rfl
@[simp] theorem State.setPending_result (s : State) (q : List HostInput) : (s.setPending q).result = s.result := rfl
@[simp] theorem State.setPending_faultLog (s : State) (q : List HostInput) : (s.setPending q).faultLog = s.faultLog := rfl

/-! ### ret -/

@[simp] theorem State.ret_acc (s : State) (v : Value) : (s.ret v).acc = s.acc := rfl
@[simp] theorem State.ret_chk (s : State) (v : Value) : (s.ret v).chk = s.chk := rfl
@[simp] theorem State.ret_seq (s : State) (v : Value) : (s.ret v).seq = s.seq := rfl
@[simp] theorem State.ret_session (s : State) (v : Value) : (s.ret v).session = s.session := rfl
@[simp] theorem State.ret_link (s : State) (v : Value) : (s.ret v).link = s.link := rfl
@[simp] theorem State.ret_dmem (s : State) (v : Value) : (s.ret v).dmem = s.dmem := rfl
@[simp] theorem State.ret_pending (s : State) (v : Value) : (s.ret v).pending = s.pending := rfl
@[simp] theorem State.ret_result (s : State) (v : Value) : (s.ret v).result = some (.ok v) := rfl
@[simp] theorem State.ret_faultLog (s : State) (v : Value) : (s.ret v).faultLog = s.faultLog := rfl

/-! ### raise -/

@[simp] theorem State.raise_acc (s : State) (e : ErrInfo) : (s.raise e).acc = s.acc := rfl
@[simp] theorem State.raise_chk (s : State) (e : ErrInfo) : (s.raise e).chk = s.chk := rfl
@[simp] theorem State.raise_seq (s : State) (e : ErrInfo) : (s.raise e).seq = s.seq := rfl
@[simp] theorem State.raise_session (s : State) (e : ErrInfo) : (s.raise e).session = s.session := rfl
@[simp] theorem State.raise_link (s : State) (e : ErrInfo) : (s.raise e).link = s.link := rfl
@[simp] theorem State.raise_dmem (s : State) (e : ErrInfo) : (s.raise e).dmem = s.dmem := rfl
@[simp] theorem State.raise_pending (s : State) (e : ErrInfo) : (s.raise e).pending = s.pending := rfl
@[simp] theorem State.raise_result (s : State) (e : ErrInfo) : (s.raise e).result = some (.err e) := rfl
@[simp] theorem State.raise_faultLog (s : State) (e : ErrInfo) : (s.raise e).faultLog = if e.isPortFault then s.faultLog ++ [e] else s.faultLog := rfl

/-! ### setPhase -/

@[simp] theorem State.setPhase_acc (s : State) (x : Phase) : (s.setPhase x).acc = s.acc := rfl
@[simp] theorem State.setPhase_chk (s : State) (x : Phase) : (s.setPhase x).chk = s.chk := rfl
@[simp] theorem State.setPhase_phase (s : State) (x : Phase) : (s.setPhase x).seq.phase = x := rfl
@[simp] theorem State.setPhase_sub (s : State) (x : Phase) : (s.setPhase x).seq.sub = s.seq.sub := rfl
@[simp] theorem State.setPhase_attempts (s : State) (x : Phase) : (s.setPhase x).seq.attempts = s.seq.attempts := rfl
@[simp] theorem State.setPhase_rx (s : State) (x : Phase) : (s.setPhase x).seq.rx = s.seq.rx := rfl
@[simp] theorem State.setPhase_out (s : State) (x : Phase) : (s.setPhase x).seq.out = s.seq.out := rfl
@[simp] theorem State.setPhase_session (s : State) (x : Phase) : (s.setPhase x).session = s.session := rfl
@[simp] theorem State.setPhase_link (s : State) (x : Phase) : (s.setPhase x).link = s.link := rfl
@[simp] theorem State.setPhase_dmem (s : State) (x : Phase) : (s.setPhase x).dmem = s.dmem := rfl
@[simp] theorem State.setPhase_pending (s : State) (x : Phase) : (s.setPhase x).pending = s.pending := rfl
@[simp] theorem State.setPhase_result (s : State) (x : Phase) : (s.setPhase x).result = s.result := rfl
@[simp] theorem State.setPhase_faultLog (s : State) (x : Phase) : (s.setPhase x).faultLog = s.faultLog := rfl

/-! ### countAttempt -/

@[simp] theorem State.countAttempt_acc (s : State) : (s.countAttempt).acc = s.acc := rfl
@[simp] theorem State.countAttempt_chk (s : State) : (s.countAttempt).chk = s.chk := rfl
@[simp] theorem State.countAttempt_phase (s : State) : (s.countAttempt).seq.phase = s.seq.phase := rfl
@[simp] theorem State.countAttempt_sub (s : State) : (s.countAttempt).seq.sub = s.seq.sub := rfl
@[simp] theorem State.countAttempt_attempts (s : State) : (s.countAttempt).seq.attempts = s.seq.attempts + 1 := rfl
@[simp] theorem State.countAttempt_rx (s : State) : (s.countAttempt).seq.rx = s.seq.rx := rfl
@[simp] theorem State.countAttempt_out (s : State) : (s.countAttempt).seq.out = s.seq.out := rfl
@[simp] theorem State.countAttempt_session (s : State) : (s.countAttempt).session = s.session := rfl
@[simp] theorem State.countAttempt_link (s : State) : (s.countAttempt).link = s.link := rfl
@[simp] theorem State.countAttempt_dmem (s : State) : (s.countAttempt).dmem = s.dmem := rfl
@[simp] theorem State.countAttempt_pending (s : State) : (s.countAttempt).pending = s.pending := rfl
@[simp] theorem State.countAttempt_result (s : State) : (s.countAttempt).result = s.result := rfl
@[simp] theorem State.countAttempt_faultLog (s : State) : (s.countAttempt).faultLog = s.faultLog := rfl

/-! ### setOut -/

@[simp] theorem State.setOut_acc (s : State) (v : List Byte) : (s.setOut v).acc = s.acc := rfl
@[simp] theorem State.setOut_chk (s : State) (v : List Byte) : (s.setOut v).chk = s.chk := rfl
@[simp] theorem State.setOut_phase (s : State) (v : List Byte) : (s.setOut v).seq.phase = s.seq.phase := rfl
@[simp] theorem State.setOut_sub (s : State) (v : List Byte) : (s.setOut v).seq.sub = s.seq.sub := rfl
@[simp] theorem State.setOut_attempts (s : State) (v : List Byte) : (s.setOut v).seq.attempts = s.seq.attempts := rfl
@[simp] theorem State.setOut_rx (s : State) (v : List Byte) : (s.setOut v).seq.rx = s.seq.rx := rfl
@[simp] theorem State.setOut_out (s : State) (v : List Byte) : (s.setOut v).seq.out = v := rfl
@[simp] theorem State.setOut_session (s : State) (v : List Byte) : (s.setOut v).session = s.session := rfl
@[simp] theorem State.setOut_link (s : State) (v : List Byte) : (s.setOut v).link = s.link := rfl
@[simp] theorem State.setOut_dmem (s : State) (v : List Byte) : (s.setOut v).dmem = s.dmem := rfl
@[simp] theorem State.setOut_pending (s : State) (v : List Byte) : (s.setOut v).pending = s.pending := rfl
@[simp] theorem State.setOut_result (s : State) (v : List Byte) : (s.setOut v).result = s.result := rfl
@[simp] theorem State.setOut_faultLog (s : State) (v : List Byte) : (s.setOut v).faultLog = s.faultLog := rfl

/-! ### keepOut -/

@[simp] theorem State.keepOut_acc (s : State) : (s.keepOut).acc = s.acc := rfl
@[simp] theorem State.keepOut_chk (s : State) : (s.keepOut).chk = s.chk := rfl
@[simp] theorem State.keepOut_phase (s : State) : (s.keepOut).seq.phase = s.seq.phase := rfl
@[simp] theorem State.keepOut_sub (s : State) : (s.keepOut).seq.sub = s.seq.sub := rfl
@[simp] theorem State.keepOut_attempts (s : State) : (s.keepOut).seq.attempts = s.seq.attempts := rfl
@[simp] theorem State.keepOut_rx (s : State) : (s.keepOut).seq.rx = s.seq.rx ++ s.seq.out := rfl
@[simp] theorem State.keepOut_out (s : State) : (s.keepOut).seq.out = s.seq.out := rfl
@[simp] theorem State.keepOut_session (s : State) : (s.keepOut).session = s.session := rfl
@[simp] theorem State.keepOut_link (s : State) : (s.keepOut).link = s.link := rfl
@[simp] theorem State.keepOut_dmem (s : State) : (s.keepOut).dmem = s.dmem := rfl
@[simp] theorem State.keepOut_pending (s : State) : (s.keepOut).pending = s.pending := rfl
@[simp] theorem State.keepOut_result (s : State) : (s.keepOut).result = s.result := rfl
@[simp] theorem State.keepOut_faultLog (s : State) : (s.keepOut).faultLog = s.faultLog := rfl

/-! ### What raising does -/

/-- A code 6 or 7 goes into the result and to the end of the fault log (60_exceptions.md R151). -/
theorem State.raise_portFault (s : State) (e : ErrInfo) (h : e.isPortFault = true) :
    s.raise e = { s with result := some (.err e), faultLog := s.faultLog ++ [e] } := by
  simp [State.raise, h]

/-- Any other error goes into the result only. -/
theorem State.raise_ordinary (s : State) (e : ErrInfo) (h : e.isPortFault = false) :
    s.raise e = { s with result := some (.err e) } := by
  simp [State.raise, h]

end Sys2Proof.Machine
end

