-- ==== Sys2Proof/Laws/Transport.lean ====
section
/-! SUPPORT. What the transport operations and the ends of an exchange can do. -/

namespace Sys2Proof.Machine

/-- A read answers at most the bytes asked for (10_state.md R27). -/
theorem txRead_length (n : Nat) (s : State) : (txRead n s).1.length ≤ n := by
  simp only [txRead, List.length_take]
  omega

/-- With a script, a read answers its first entry, cut to what was asked for. -/
theorem txRead_scripted (n : Nat) (s : State) (x : List Byte) (rest : List (List Byte)) (h : s.link.reads = x :: rest) :
    txRead n s = (x.take n, s.setLink { s.link with reads := rest, nReads := s.link.nReads + 1 }) := by
  simp [txRead, Link.nextAnswer, h]

/-- With a script, a write has its first outcome. -/
theorem txWrite_scripted (bytes : List Byte) (s : State) (b : Bool) (rest : List Bool) (h : s.link.writes = b :: rest) :
    txWrite bytes s = (b, s.setLink { s.link with writes := rest, sent := s.link.sent ++ [⟨bytes, b⟩] }) := by
  simp [txWrite, Link.nextAccept, h]

/-- A read changes the transport only. -/
theorem txRead_state (n : Nat) (s : State) :
    (txRead n s).2 = s.setLink { s.link with reads := s.link.reads.tail, nReads := s.link.nReads + 1 } := rfl

/-- A write changes the transport only, and records what was written. -/
theorem txWrite_state (bytes : List Byte) (s : State) :
    (txWrite bytes s).2 = s.setLink { s.link with
      writes := s.link.writes.tail
      sent := s.link.sent ++ [⟨bytes, (txWrite bytes s).1⟩] } := rfl

/-- What no operation of the sequencer touches (42_crc32_command.md R136), errors of codes 1 to 4 included. -/
def KeepsBlock (s t : State) : Prop :=
  t.acc = s.acc ∧ t.chk = s.chk ∧ t.session = s.session ∧ t.dmem = s.dmem ∧ t.pending = s.pending ∧ t.faultLog = s.faultLog

theorem KeepsBlock.refl (s : State) : KeepsBlock s s := ⟨rfl, rfl, rfl, rfl, rfl, rfl⟩

theorem KeepsBlock.trans {s t u : State} (h : KeepsBlock s t) (k : KeepsBlock t u) : KeepsBlock s u :=
  ⟨k.1.trans h.1, k.2.1.trans h.2.1, k.2.2.1.trans h.2.2.1, k.2.2.2.1.trans h.2.2.2.1,
    k.2.2.2.2.1.trans h.2.2.2.2.1, k.2.2.2.2.2.trans h.2.2.2.2.2⟩

theorem keepsBlock_setSeq (s : State) (q : Seq) : KeepsBlock s (s.setSeq q) := ⟨rfl, rfl, rfl, rfl, rfl, rfl⟩

theorem keepsBlock_setLink (s : State) (l : Link) : KeepsBlock s (s.setLink l) := ⟨rfl, rfl, rfl, rfl, rfl, rfl⟩

theorem keepsBlock_txRead (n : Nat) (s : State) : KeepsBlock s (txRead n s).2 := ⟨rfl, rfl, rfl, rfl, rfl, rfl⟩

theorem keepsBlock_txWrite (bytes : List Byte) (s : State) : KeepsBlock s (txWrite bytes s).2 := ⟨rfl, rfl, rfl, rfl, rfl, rfl⟩

/-- An exchange that ends in an error has phase Done, that error as its result, and nothing else changed. -/
theorem failExchange_spec (e : ErrInfo) (s : State) (h : e.isPortFault = false) :
    KeepsBlock s (failExchange e s) ∧ (failExchange e s).seq = { s.seq with phase := .done } ∧
      (failExchange e s).link = s.link ∧ (failExchange e s).result = some (.err e) := by
  refine ⟨⟨rfl, rfl, rfl, rfl, rfl, ?_⟩, rfl, rfl, rfl⟩
  simp [failExchange, h]

/-- `NakFail`: one NAK byte is written, whatever becomes of it, and the result is an error with the reply bytes so far. -/
theorem nakFail_spec (p : Params) (why : Reason) (s : State) (h : why.kind = .protocolError) :
    KeepsBlock s (nakFail p why s) ∧ (nakFail p why s).seq = { s.seq with phase := .done } ∧
      (nakFail p why s).link = (txWrite [p.nakByte] s).2.link ∧
      (nakFail p why s).result = some (.err ⟨why, .replyBytes s.seq.rx⟩) := by
  have hp : (⟨why, .replyBytes s.seq.rx⟩ : ErrInfo).isPortFault = false := by
    simp [ErrInfo.isPortFault, ErrInfo.code, ErrInfo.kind, h, ErrKind.code]
  have := failExchange_spec ⟨why, .replyBytes s.seq.rx⟩ (txWrite [p.nakByte] s).2 hp
  exact ⟨(keepsBlock_txWrite _ _).trans this.1, this.2.1, this.2.2.1, this.2.2.2⟩

end Sys2Proof.Machine
end

