-- ==== Sys2Proof/Laws/Exchange.lean ====
section
/-! SUPPORT. What `RecvAck`, `RecvExact` and the judging of a reply can do, whatever the transport answers. -/

namespace Sys2Proof.Machine

/-- Two states that differ by reads of the transport only: nothing of the block, nothing written, and of the sequencer only
`attempts` and `out`. -/
def ReadsOnly (s t : State) : Prop :=
  KeepsBlock s t ∧ t.result = s.result ∧ t.seq.phase = s.seq.phase ∧ t.seq.sub = s.seq.sub ∧ t.seq.rx = s.seq.rx ∧
    t.link.sent = s.link.sent ∧ t.link.writes = s.link.writes

theorem ReadsOnly.refl (s : State) : ReadsOnly s s := ⟨KeepsBlock.refl s, rfl, rfl, rfl, rfl, rfl, rfl⟩

theorem ReadsOnly.trans {s t u : State} (h : ReadsOnly s t) (k : ReadsOnly t u) : ReadsOnly s u := by
  obtain ⟨h1, h2, h3, h4, h5, h6, h7⟩ := h
  obtain ⟨k1, k2, k3, k4, k5, k6, k7⟩ := k
  exact ⟨h1.trans k1, k2.trans h2, k3.trans h3, k4.trans h4, k5.trans h5, k6.trans h6, k7.trans h7⟩

theorem readsOnly_txRead (n : Nat) (s : State) : ReadsOnly s (txRead n s).2 :=
  ⟨keepsBlock_txRead n s, rfl, rfl, rfl, rfl, rfl, rfl⟩

theorem readsOnly_countAttempt (s : State) : ReadsOnly s s.countAttempt :=
  ⟨keepsBlock_setSeq s _, rfl, rfl, rfl, rfl, rfl, rfl⟩

theorem readsOnly_setOut (s : State) (v : List Byte) : ReadsOnly s (s.setOut v) :=
  ⟨keepsBlock_setSeq s _, rfl, rfl, rfl, rfl, rfl, rfl⟩

/-- `RecvAck` with `n` attempts left (42_crc32_command.md R128): each attempt is one read, `out` stays, and a timeout has used
them all. -/
theorem recvAck_spec (p : Params) (n : Nat) (s : State) :
    ReadsOnly s (recvAck p n s).2 ∧ (recvAck p n s).2.seq.out = s.seq.out ∧
      (recvAck p n s).2.seq.attempts ≤ s.seq.attempts + n ∧
      (recvAck p n s).2.link.nReads + s.seq.attempts = s.link.nReads + (recvAck p n s).2.seq.attempts ∧
      ((recvAck p n s).1 = .timeout → (recvAck p n s).2.seq.attempts = s.seq.attempts + n) := by
  induction n generalizing s with
  | zero => exact ⟨ReadsOnly.refl s, rfl, Nat.le_refl _, rfl, fun _ => rfl⟩
  | succ n ih =>
    have hro : ReadsOnly s (txRead 1 s.countAttempt).2 := (readsOnly_countAttempt s).trans (readsOnly_txRead 1 _)
    simp only [recvAck]
    split
    · exact ⟨hro, rfl, by simp [txRead], by simp [txRead]; omega, fun h => by cases h⟩
    · split
      · exact ⟨hro, rfl, by simp [txRead], by simp [txRead]; omega, fun h => by cases h⟩
      · obtain ⟨i1, i2, i3, i4, i5⟩ := ih (txRead 1 s.countAttempt).2
        refine ⟨hro.trans i1, i2, ?_, ?_, fun h => ?_⟩
        · simp only [txRead_state, State.setLink_seq, State.countAttempt_attempts] at i3 ⊢
          omega
        · simp only [txRead_state, State.setLink_seq, State.setLink_link, State.countAttempt_attempts,
            State.countAttempt_link] at i4 ⊢
          omega
        · have := i5 h
          simp only [txRead_state, State.setLink_seq, State.countAttempt_attempts] at this ⊢
          omega

/-- The loop of `RecvExact` (42_crc32_command.md R130) with enough fuel, from within its budget: `out` only grows and never past
`n`; each read brought a byte or used an attempt up; success holds all `n` bytes within the budget, and `short` has used it up. -/
theorem recvLoop_spec (p : Params) (n fuel : Nat) (s : State) (hout : s.seq.out.length ≤ n)
    (ha : s.seq.attempts ≤ p.crcDataRetries)
    (hf : n - s.seq.out.length = 0 ∨ p.crcDataRetries - s.seq.attempts + (n - s.seq.out.length) < fuel) :
    ReadsOnly s (recvLoop p n fuel s).2 ∧
      s.seq.attempts ≤ (recvLoop p n fuel s).2.seq.attempts ∧
      (recvLoop p n fuel s).2.link.nReads + s.seq.out.length + s.seq.attempts ≤
        s.link.nReads + (recvLoop p n fuel s).2.seq.out.length + (recvLoop p n fuel s).2.seq.attempts ∧
      ((recvLoop p n fuel s).1 = true → (recvLoop p n fuel s).2.seq.out.length = n ∧
        (recvLoop p n fuel s).2.seq.attempts ≤ p.crcDataRetries) ∧
      ((recvLoop p n fuel s).1 = false → (recvLoop p n fuel s).2.seq.out.length < n ∧
        (recvLoop p n fuel s).2.seq.attempts = p.crcDataRetries + 1) := by
  induction fuel generalizing s with
  | zero =>
    have hn : n ≤ s.seq.out.length := by omega
    refine ⟨ReadsOnly.refl s, Nat.le_refl _, Nat.le_refl _, fun _ => ⟨?_, ha⟩, fun h => ?_⟩
    · exact Nat.le_antisymm hout hn
    · simp [recvLoop, hn] at h
  | succ fuel ih =>
    by_cases hn : n ≤ s.seq.out.length
    · have hr : recvLoop p n (fuel + 1) s = (true, s) := by simp [recvLoop, hn]
      rw [hr]
      exact ⟨ReadsOnly.refl s, Nat.le_refl _, Nat.le_refl _, fun _ => ⟨Nat.le_antisymm hout hn, ha⟩, fun h => by cases h⟩
    · simp only [recvLoop, hn, if_false]
      have hlen := txRead_length (n - s.seq.out.length) s
      have hstate := txRead_state (n - s.seq.out.length) s
      have hro := readsOnly_txRead (n - s.seq.out.length) s
      generalize hr : txRead (n - s.seq.out.length) s = r at hlen hstate hro ⊢
      have hseq : r.2.seq = s.seq := by rw [hstate]; rfl
      have hreads : r.2.link.nReads = s.link.nReads + 1 := by rw [hstate]; rfl
      split
      · have hro' := hro.trans (readsOnly_countAttempt r.2)
        split
        next hb =>
          refine ⟨hro', ?_, ?_, fun h => by simp at h, fun _ => ⟨?_, ?_⟩⟩ <;>
            simp only [State.countAttempt_attempts, State.countAttempt_out, State.countAttempt_link, hseq, hreads] at hb ⊢ <;>
            omega
        next hb =>
          have hb' : s.seq.attempts + 1 ≤ p.crcDataRetries := by
            simp only [State.countAttempt_attempts, hseq] at hb
            omega
          obtain ⟨i1, i2, i3, i4, i5⟩ := ih r.2.countAttempt (by simpa [hseq] using hout) (by simpa [hseq] using hb')
            (by simp only [State.countAttempt_out, State.countAttempt_attempts, hseq]; omega)
          refine ⟨hro'.trans i1, ?_, ?_, i4, i5⟩ <;>
            simp only [State.countAttempt_attempts, State.countAttempt_out, State.countAttempt_link, hseq, hreads] at i2 i3 ⊢ <;>
            omega
      next hne =>
        have hpos : 0 < r.1.length := List.length_pos_iff.mpr hne
        have hro' := hro.trans (readsOnly_setOut r.2 (r.2.seq.out ++ r.1))
        have hlen' : (s.seq.out ++ r.1).length = s.seq.out.length + r.1.length := List.length_append
        obtain ⟨i1, i2, i3, i4, i5⟩ := ih (r.2.setOut (r.2.seq.out ++ r.1))
          (by simp only [State.setOut_out, hseq, hlen']; omega) (by simpa [hseq] using ha)
          (by simp only [State.setOut_out, State.setOut_attempts, hseq, hlen']; omega)
        refine ⟨hro'.trans i1, ?_, ?_, i4, i5⟩ <;>
          simp only [State.setOut_attempts, State.setOut_out, State.setOut_link, hseq, hreads, hlen'] at i2 i3 ⊢ <;>
          omega

/-- `RecvExact(n)` from within its budget (42_crc32_command.md R130). On success it answers `n` bytes, which are now also the end
of `rx`, and is within its budget; on `short` it has used the budget up and `rx` is as before. -/
theorem recvExact_spec (p : Params) (n : Nat) (s : State) (ha : s.seq.attempts ≤ p.crcDataRetries) :
    KeepsBlock s (recvExact p n s).2 ∧ (recvExact p n s).2.result = s.result ∧
      (recvExact p n s).2.seq.phase = s.seq.phase ∧ (recvExact p n s).2.seq.sub = s.seq.sub ∧
      (recvExact p n s).2.link.sent = s.link.sent ∧ (recvExact p n s).2.link.writes = s.link.writes ∧
      s.seq.attempts ≤ (recvExact p n s).2.seq.attempts ∧
      (recvExact p n s).2.link.nReads + s.seq.attempts ≤
        s.link.nReads + (recvExact p n s).2.seq.out.length + (recvExact p n s).2.seq.attempts ∧
      ((∃ data, (recvExact p n s).1 = some data ∧ data.length = n ∧ (recvExact p n s).2.seq.out = data ∧
          (recvExact p n s).2.seq.rx = s.seq.rx ++ data ∧ (recvExact p n s).2.seq.attempts ≤ p.crcDataRetries) ∨
        ((recvExact p n s).1 = none ∧ (recvExact p n s).2.seq.out.length < n ∧ (recvExact p n s).2.seq.rx = s.seq.rx ∧
          (recvExact p n s).2.seq.attempts = p.crcDataRetries + 1)) := by
  have h := recvLoop_spec p n (p.crcDataRetries + 1 - s.seq.attempts + n) (s.setOut []) (by simp) (by simpa using ha)
    (by simp only [State.setOut_out, State.setOut_attempts, List.length_nil]; omega)
  simp only [recvExact]
  generalize hr : recvLoop p n (p.crcDataRetries + 1 - s.seq.attempts + n) (s.setOut []) = r at h ⊢
  obtain ⟨⟨h1, h2, h3, h4, h5, h6, h7⟩, i2, i3, i4, i5⟩ := h
  have hk := (keepsBlock_setSeq s { s.seq with out := [] }).trans h1
  simp only [State.setOut_out, State.setOut_attempts, State.setOut_link, List.length_nil, Nat.add_zero] at i2 i3
  cases hb : r.1 with
  | true =>
    obtain ⟨j1, j2⟩ := i4 hb
    simp only [if_true]
    exact ⟨hk.trans (keepsBlock_setSeq _ _), h2, h3, h4, h6, h7, i2, i3,
      .inl ⟨_, rfl, j1, rfl, by rw [State.keepOut_rx, h5]; rfl, j2⟩⟩
  | false =>
    obtain ⟨j1, j2⟩ := i5 hb
    simp only [Bool.false_eq_true, if_false]
    exact ⟨hk, h2, h3, h4, h6, h7, i2, i3, .inr ⟨by trivial, j1, h5, j2⟩⟩

/-- The judging of a collected reply (42_crc32_command.md R121 steps 5 and 6): one write, a NAK for a bad reply and an ACK for
a good one; phase Done; and the outcome. -/
theorem judgeReply_spec (p : Params) (rcks : Byte) (data : List Byte) (s : State) :
    KeepsBlock s (judgeReply p rcks data s) ∧ (judgeReply p rcks data s).seq = { s.seq with phase := .done } ∧
      (judgeReply p rcks data s).link.nReads = s.link.nReads ∧
      ((∃ b why, (judgeReply p rcks data s).link.sent = s.link.sent ++ [⟨[p.nakByte], b⟩] ∧
          (judgeReply p rcks data s).result = some (.err ⟨why, .replyBytes s.seq.rx⟩) ∧
          (why = .checkMismatch ∧ dsum data ≠ rcks ∨
            why = .notFourBytes ∧ dsum data = rcks ∧ data.length ≠ p.crcReplyLen)) ∨
       (dsum data = rcks ∧ data.length = p.crcReplyLen ∧ ∃ b,
          (judgeReply p rcks data s).link.sent = s.link.sent ++ [⟨[p.ackByte], b⟩] ∧
          (judgeReply p rcks data s).result =
            some (if b then .ok (.u32 (fromBe32 data)) else .err ⟨.ackWrite, .none⟩))) := by
  simp only [judgeReply]
  by_cases h1 : dsum data = rcks
  · by_cases h2 : data.length = p.crcReplyLen
    · rw [if_neg (fun h => h h1), if_neg (fun h => h h2)]
      simp only [acceptReply]
      have hk := keepsBlock_txWrite [p.ackByte] s
      have hs := txWrite_state [p.ackByte] s
      generalize txWrite [p.ackByte] s = w at hk hs ⊢
      have hseq : w.2.seq = s.seq := by rw [hs]; rfl
      have hsent : w.2.link.sent = s.link.sent ++ [⟨[p.ackByte], w.1⟩] := by rw [hs]; rfl
      have hreads : w.2.link.nReads = s.link.nReads := by rw [hs]; rfl
      cases hb : w.1 with
      | true =>
        rw [hb] at hsent
        exact ⟨hk.trans ⟨rfl, rfl, rfl, rfl, rfl, rfl⟩, by rw [← hseq]; rfl, hreads, .inr ⟨h1, h2, true, hsent, rfl⟩⟩
      | false =>
        rw [hb] at hsent
        obtain ⟨f1, f2, f3, f4⟩ := failExchange_spec ⟨.ackWrite, .none⟩ w.2 rfl
        exact ⟨hk.trans f1, by rw [← hseq]; exact f2, by rw [← hreads]; exact congrArg Link.nReads f3,
          .inr ⟨h1, h2, false, (congrArg Link.sent f3).trans hsent, f4⟩⟩
    · rw [if_neg (fun h => h h1), if_pos h2]
      obtain ⟨f1, f2, f3, f4⟩ := nakFail_spec p .notFourBytes s rfl
      exact ⟨f1, f2, (congrArg Link.nReads f3).trans rfl,
        .inl ⟨_, _, congrArg Link.sent f3, f4, .inr ⟨rfl, h1, h2⟩⟩⟩
  · rw [if_pos h1]
    obtain ⟨f1, f2, f3, f4⟩ := nakFail_spec p .checkMismatch s rfl
    exact ⟨f1, f2, (congrArg Link.nReads f3).trans rfl, .inl ⟨_, _, congrArg Link.sent f3, f4, .inl ⟨rfl, h1⟩⟩⟩

end Sys2Proof.Machine
end

