-- ==== Sys2Proof/Laws/Linear.lean ====
section
/-! SUPPORT. GF(2) linearity (40_crc32.md R80, R87): the shift loop distributes over xor, and two xor-additive functions that
agree on the powers of two are equal. -/

namespace Sys2Proof.Machine

/-- One pass of the loop distributes over xor. -/
theorem crcShift_xor (p : Params) (x y : Word) : crcShift p (x ^^^ y) = crcShift p x ^^^ crcShift p y := by
  unfold crcShift
  rw [BitVec.getLsbD_xor, BitVec.ushiftRight_xor_distrib]
  generalize x >>> 1 = u
  generalize y >>> 1 = v
  cases x.getLsbD 0 <;> cases y.getLsbD 0 <;> simp only [Bool.xor_self, Bool.xor_true, Bool.xor_false,
    Bool.not_false, if_true, Bool.false_eq_true, if_false]
  · ac_rfl
  · ac_rfl
  · rw [show (u ^^^ p.crcPolyRefl) ^^^ (v ^^^ p.crcPolyRefl) = (u ^^^ v) ^^^ (p.crcPolyRefl ^^^ p.crcPolyRefl) by ac_rfl]
    simp

/-- `n` passes distribute over xor. -/
theorem crcShifts_xor (p : Params) (n : Nat) (x y : Word) :
    crcShifts p n (x ^^^ y) = crcShifts p n x ^^^ crcShifts p n y := by
  induction n generalizing x y with
  | zero => rfl
  | succ n ih => simp only [crcShifts, crcShift_xor, ih]

/-- The sum of `f` over the set bits of `x` below `n`. -/
def sumBits {w u : Nat} (f : BitVec w → BitVec u) (x : BitVec w) : Nat → BitVec u
  | 0 => 0
  | n + 1 => sumBits f x n ^^^ (if x.getLsbD n then f (BitVec.twoPow w n) else 0)

/-- The set bits of a vector below `n` sum up to its low `n` bits. -/
theorem sumBits_id_getLsbD {w : Nat} (x : BitVec w) (n i : Nat) :
    (sumBits id x n).getLsbD i = (decide (i < n) && x.getLsbD i) := by
  induction n with
  | zero => simp [sumBits]
  | succ n ih =>
    have hbit : (if x.getLsbD n then BitVec.twoPow w n else 0).getLsbD i = (decide (n = i) && x.getLsbD i) := by
      by_cases hn : n = i
      · subst hn
        cases h : x.getLsbD n with
        | false => simp
        | true => simp [BitVec.lt_of_getLsbD h]
      · split <;> simp [BitVec.getLsbD_twoPow, hn]
    simp only [sumBits, BitVec.getLsbD_xor, ih, id, hbit]
    rcases Nat.lt_trichotomy i n with h | h | h
    · simp [h, Nat.lt_succ_of_lt h, Nat.ne_of_gt h]
    · simp [h]
    · have h1 : ¬ i < n := by omega
      have h2 : ¬ i < n + 1 := by omega
      simp only [h1, h2, Nat.ne_of_lt h, decide_false, Bool.false_and, Bool.xor_false]

/-- An additive function is the sum of its values at the set bits. -/
theorem additive_sumBits {w u : Nat} (f : BitVec w → BitVec u) (hf : ∀ x y, f (x ^^^ y) = f x ^^^ f y) (x : BitVec w) :
    f x = sumBits f x w := by
  have h0 : f 0 = 0 := by simpa using hf 0 0
  have key : ∀ n, f (sumBits id x n) = sumBits f x n := by
    intro n
    induction n with
    | zero => simpa [sumBits] using h0
    | succ n ih =>
      simp only [sumBits, hf, ih, id]
      split <;> simp_all
  have hx : sumBits id x w = x := by
    apply BitVec.eq_of_getLsbD_eq
    intro i hi
    rw [sumBits_id_getLsbD]
    simp [hi]
  rw [← key, hx]

/-- Two additive functions that agree on the powers of two are equal. -/
theorem additive_ext {w u : Nat} (f g : BitVec w → BitVec u) (hf : ∀ x y, f (x ^^^ y) = f x ^^^ f y)
    (hg : ∀ x y, g (x ^^^ y) = g x ^^^ g y) (h : ∀ n < w, f (BitVec.twoPow w n) = g (BitVec.twoPow w n)) (x : BitVec w) :
    f x = g x := by
  rw [additive_sumBits f hf, additive_sumBits g hg]
  have : ∀ n ≤ w, sumBits f x n = sumBits g x n := by
    intro n
    induction n with
    | zero => intro _; rfl
    | succ n ih => intro hn; simp only [sumBits, ih (by omega), h n (by omega)]
  exact this w (Nat.le_refl w)

end Sys2Proof.Machine
end

