-- ==== Sys2Proof/Laws/Memory.lean ====
section
/-! SUPPORT. Device memory: a write is read back, leaves every other address alone, and keeps the canonical form. -/

namespace Sys2Proof.Machine

@[simp] theorem Memory.read_nil (a : Nat) : Memory.read [] a = Config.unwrittenByte a := rfl

@[simp] theorem Memory.length_readRange (m : Memory) (a n : Nat) : (m.readRange a n).length = n := by
  induction n generalizing a with
  | zero => rfl
  | succ n ih => simp [Memory.readRange, ih]

/-- The canonical form, spelled out for a list with a head. -/
theorem Memory.wf_cons (a : Nat) (v : Byte) (m : Memory) :
    Memory.wf ((a, v) :: m) = true ↔
      a < 2 ^ 32 ∧ v ≠ Config.unwrittenByte a ∧ (∀ c ∈ m, a < c.1) ∧ m.wf = true := by
  simp [Memory.wf, List.all_eq_true, and_assoc]

/-- An address below every listed one reads as unwritten. -/
theorem Memory.read_below (m : Memory) (a : Nat) (h : ∀ c ∈ m, a < c.1) : m.read a = Config.unwrittenByte a := by
  induction m with
  | nil => rfl
  | cons c m ih =>
    obtain ⟨b, u⟩ := c
    simp only [List.mem_cons, forall_eq_or_imp] at h
    simp [Memory.read, Nat.ne_of_lt h.1, ih h.2]

/-- A placed byte reads back where nothing listed stands at or below its address. -/
theorem Memory.read_place_same (a : Nat) (v : Byte) (m : Memory) (h : ∀ c ∈ m, a < c.1) :
    (Memory.place a v m).read a = v := by
  unfold Memory.place
  split
  next hv => rw [Memory.read_below m a h, hv]
  next => simp [Memory.read]

theorem Memory.read_place_other (a b : Nat) (v : Byte) (m : Memory) (h : b ≠ a) :
    (Memory.place a v m).read b = m.read b := by
  unfold Memory.place
  split
  · rfl
  · simp [Memory.read, h]

/-- What a placed cell leaves listed. -/
theorem Memory.mem_place (a : Nat) (v : Byte) (m : Memory) (c : Host.Cell) (h : c ∈ Memory.place a v m) :
    c = (a, v) ∨ c ∈ m := by
  unfold Memory.place at h
  split at h
  · exact .inr h
  · simpa using h

theorem Memory.place_wf (a : Nat) (v : Byte) (m : Memory) (ha : a < 2 ^ 32) (h : ∀ c ∈ m, a < c.1) (hm : m.wf = true) :
    (Memory.place a v m).wf = true := by
  unfold Memory.place
  split
  · exact hm
  next hv => exact (Memory.wf_cons a v m).mpr ⟨ha, hv, h, hm⟩

/-- The addresses listed rise strictly: the part of the canonical form that a read after a write needs. -/
def Memory.Rising (m : Memory) : Prop := m.Pairwise fun c d => c.1 < d.1

theorem Memory.rising_of_wf (m : Memory) (hm : m.wf = true) : m.Rising := by
  induction m with
  | nil => exact List.Pairwise.nil
  | cons c m ih =>
    obtain ⟨_, _, h3, h4⟩ := (Memory.wf_cons c.1 c.2 m).mp hm
    exact List.Pairwise.cons h3 (ih h4)

/-- In a rising memory every listed address is above an address below the head. -/
theorem Memory.above_of_lt (a b : Nat) (u : Byte) (m : Memory) (h : a < b) (hm : Memory.Rising ((b, u) :: m)) :
    ∀ c ∈ (b, u) :: m, a < c.1 := by
  simp only [List.mem_cons, forall_eq_or_imp]
  exact ⟨h, fun c hc => Nat.lt_trans h (List.rel_of_pairwise_cons hm hc)⟩

theorem Memory.read_write_same (m : Memory) (a : Nat) (v : Byte) (hm : m.Rising) : (m.write a v).read a = v := by
  induction m with
  | nil => exact Memory.read_place_same a v [] (by simp)
  | cons c m ih =>
    obtain ⟨b, u⟩ := c
    simp only [Memory.write]
    split
    next hlt => exact Memory.read_place_same a v _ (Memory.above_of_lt a b u m hlt hm)
    next =>
      split
      next heq => exact Memory.read_place_same a v m fun c hc => heq ▸ List.rel_of_pairwise_cons hm hc
      next hne => simp [Memory.read, hne, ih (List.Pairwise.of_cons hm)]

theorem Memory.read_write_other (m : Memory) (a b : Nat) (v : Byte) (h : b ≠ a) : (m.write a v).read b = m.read b := by
  induction m with
  | nil => exact Memory.read_place_other a b v [] h
  | cons c m ih =>
    obtain ⟨k, u⟩ := c
    simp only [Memory.write]
    split
    · exact Memory.read_place_other a b v _ h
    · split
      next heq => rw [Memory.read_place_other a b v m h]; simp [Memory.read, ← heq, h]
      next => simp [Memory.read, ih]

/-- What a write lists was listed before, or is the byte written. -/
theorem Memory.mem_write (m : Memory) (a : Nat) (v : Byte) (c : Host.Cell) (h : c ∈ m.write a v) : c = (a, v) ∨ c ∈ m := by
  induction m with
  | nil => exact Memory.mem_place a v [] c h
  | cons d m ih =>
    obtain ⟨k, u⟩ := d
    simp only [Memory.write] at h
    split at h
    · exact Memory.mem_place a v _ c h
    · split at h
      · exact (Memory.mem_place a v m c h).imp_right (List.mem_cons_of_mem _)
      · rcases List.mem_cons.mp h with h | h
        · exact .inr (h ▸ List.mem_cons_self)
        · exact (ih h).imp_right (List.mem_cons_of_mem _)

theorem Memory.place_rising (a : Nat) (v : Byte) (m : Memory) (h : ∀ c ∈ m, a < c.1) (hm : m.Rising) :
    (Memory.place a v m).Rising := by
  unfold Memory.place
  split
  · exact hm
  · exact List.Pairwise.cons h hm

/-- A write anywhere keeps the addresses rising. -/
theorem Memory.write_rising (m : Memory) (a : Nat) (v : Byte) (hm : m.Rising) : (m.write a v).Rising := by
  induction m with
  | nil => exact Memory.place_rising a v [] (by simp) hm
  | cons d m ih =>
    obtain ⟨k, u⟩ := d
    have h3 : ∀ c ∈ m, k < c.1 := fun c hc => List.rel_of_pairwise_cons hm hc
    have h4 : Memory.Rising m := List.Pairwise.of_cons hm
    simp only [Memory.write]
    split
    next hlt => exact Memory.place_rising a v _ (Memory.above_of_lt a k u m hlt hm) hm
    next hlt =>
      split
      next heq => exact Memory.place_rising a v m (heq ▸ h3) h4
      next hne =>
        refine List.Pairwise.cons (fun c hc => ?_) (ih h4)
        rcases Memory.mem_write m a v c hc with h | h
        · subst h; show k < a; omega
        · exact h3 c h

/-- A write of a byte at a 32-bit address keeps the canonical form. -/
theorem Memory.write_wf (m : Memory) (a : Nat) (v : Byte) (ha : a < 2 ^ 32) (hm : m.wf = true) : (m.write a v).wf = true := by
  induction m with
  | nil => exact Memory.place_wf a v [] ha (by simp) rfl
  | cons d m ih =>
    obtain ⟨k, u⟩ := d
    obtain ⟨h1, h2, h3, h4⟩ := (Memory.wf_cons k u m).mp hm
    simp only [Memory.write]
    split
    next hlt => exact Memory.place_wf a v _ ha (Memory.above_of_lt a k u m hlt (Memory.rising_of_wf _ hm)) hm
    next hlt =>
      split
      next heq => exact Memory.place_wf a v m ha (heq ▸ h3) h4
      next hne =>
        refine (Memory.wf_cons k u _).mpr ⟨h1, h2, fun c hc => ?_, ih h4⟩
        rcases Memory.mem_write m a v c hc with h | h
        · subst h; show k < a; omega
        · exact h3 c h

/-- Writing bytes within the 32-bit addresses keeps the canonical form. -/
theorem Memory.writeBytes_wf (m : Memory) (a : Nat) (vs : List Byte) (ha : a + vs.length ≤ 2 ^ 32) (hm : m.wf = true) :
    (m.writeBytes a vs).wf = true := by
  induction vs generalizing m a with
  | nil => exact hm
  | cons v vs ih =>
    simp only [List.length_cons] at ha
    exact ih _ _ (by omega) (Memory.write_wf m a v (by omega) hm)

/-- An address outside the bytes written reads as before. -/
theorem Memory.read_writeBytes_outside (m : Memory) (a : Nat) (vs : List Byte) (b : Nat)
    (h : b < a ∨ a + vs.length ≤ b) : (m.writeBytes a vs).read b = m.read b := by
  induction vs generalizing m a with
  | nil => rfl
  | cons v vs ih =>
    simp only [List.length_cons] at h
    simp only [Memory.writeBytes]
    rw [ih _ _ (by omega), Memory.read_write_other _ _ _ _ (by omega)]

/-- The bytes written read back. -/
theorem Memory.readRange_writeBytes (m : Memory) (a : Nat) (vs : List Byte) (hm : m.Rising) :
    (m.writeBytes a vs).readRange a vs.length = vs := by
  induction vs generalizing m a with
  | nil => rfl
  | cons v vs ih =>
    simp only [Memory.writeBytes, List.length_cons, Memory.readRange]
    rw [Memory.read_writeBytes_outside _ _ _ _ (.inl (Nat.lt_succ_self a)), Memory.read_write_same m a v hm,
      ih _ _ (Memory.write_rising m a v hm)]

/-- The memory after reset has the canonical form. -/
theorem Memory.reset_wf : State.reset.dmem.wf = true := rfl

end Sys2Proof.Machine
end

