-- ==== Sys2Proof/Laws/PerInstr.lean ====
section
/-! SUPPORT. The encoding of each instruction matches its row of spec/opcode_table.json, instruction by instruction. -/

namespace Sys2Proof.Laws

open Machine

/-- The number that a row of the opcode table is matched against: a port word, or the 24-bit header
`H = LEN*2^16 + CKS*2^8 + OPC` of a packet (30_encoding.md R67). -/
def headerNumber : Issue → Nat
  | .port (w :: _) => w.toNat
  | .packet (len :: cks :: opc :: _) => len.toNat * 2 ^ 16 + cks.toNat * 2 ^ 8 + opc.toNat
  | _ => 0

/-- The mask and the match of an instruction's row; the two pseudo-instructions have none. -/
def tableRow : Instr → Option (Nat × Nat)
  | .crcInit => some (0xFFFF, 0x0100)
  | .crcByte _ => some (0xFF00, 0x0200)
  | .crcRead => some (0xFFFF, 0x0300)
  | .chkInit => some (0xFFFF, 0x1100)
  | .chkByte _ => some (0xFF00, 0x1200)
  | .chkRead => some (0xFFFF, 0x1300)
  | .crc32Dev _ _ => some (0xFF00FF, 0x0F0027)
  | .wirePing _ _ _ => some (0x0000FF, 0x000020)
  | .wireDownload _ _ _ => some (0x0000FF, 0x000021)
  | .wireGetStatus _ _ _ => some (0x0000FF, 0x000023)
  | .wireSendData _ _ _ => some (0x0000FF, 0x000024)
  | .wireReset _ _ _ => some (0x0000FF, 0x000025)
  | .wireSectorErase _ _ _ => some (0x0000FF, 0x000026)
  | .wireGetChipId _ _ _ => some (0x0000FF, 0x000028)
  | .wireMemoryRead _ _ _ => some (0x0000FF, 0x00002A)
  | .wireMemoryWrite _ _ _ => some (0x0000FF, 0x00002B)
  | .wireBankErase _ _ _ => some (0x0000FF, 0x00002C)
  | .wireSetCcfg _ _ _ => some (0x0000FF, 0x00002D)
  | .crc32Pseudo _ => none
  | .checksumPseudo _ _ => none

/-- The encoding of an instruction matches its row; a pseudo-instruction is a run of port words that starts with an INIT and
ends with the READ of the same register (30_encoding.md R72). -/
def EncodingMatch.Statement (i : Instr) : Prop :=
  match tableRow i with
  | some (mask, pat) => headerNumber (encode i) &&& mask = pat
  | none => ∃ first last ws, encode i = .port (first :: ws ++ [last]) ∧
      ((decode (.port [first]) = .instr .crcInit ∧ decode (.port [last]) = .instr .crcRead) ∨
       (decode (.port [first]) = .instr .chkInit ∧ decode (.port [last]) = .instr .chkRead))

/-- The opcode byte of a packet header is its number modulo 256. -/
theorem header_and_ff (len cks opc : Byte) :
    (len.toNat * 2 ^ 16 + cks.toNat * 2 ^ 8 + opc.toNat) &&& 0x0000FF = opc.toNat := by
  have := opc.isLt
  rw [show (0x0000FF : Nat) = 2 ^ 8 - 1 from rfl, Nat.and_two_pow_sub_one_eq_mod]
  omega

/-- A port word of format B has its operation in the upper byte. -/
theorem portWord_and_ff00 (op : Byte) : ∀ d : Byte, (op.toNat * 256 + d.toNat) &&& 0xFF00 = op.toNat * 256 := by
  intro d
  have hd := d.isLt
  have ho := op.isLt
  apply Nat.eq_of_testBit_eq
  intro k
  rw [show op.toNat * 256 = op.toNat <<< 8 by rw [Nat.shiftLeft_eq], Nat.shiftLeft_add_eq_or_of_lt hd,
    show (0xFF00 : Nat) = 0xFF <<< 8 from rfl, show (0xFF : Nat) = 2 ^ 8 - 1 from rfl]
  simp only [Nat.testBit_and, Nat.testBit_or, Nat.testBit_shiftLeft, Nat.testBit_two_pow_sub_one]
  by_cases hk : 8 ≤ k
  · have h1 : d.toNat.testBit k = false := Nat.testBit_lt_two_pow (Nat.lt_of_lt_of_le hd (Nat.pow_le_pow_right (by omega) hk))
    by_cases hk2 : k - 8 < 8
    · simp [hk, hk2, h1]
    · have h2 : op.toNat.testBit (k - 8) = false :=
        Nat.testBit_lt_two_pow (Nat.lt_of_lt_of_le ho (Nat.pow_le_pow_right (by omega) (by omega)))
      simp [hk2, h2]
  · simp [hk]

theorem EncodingMatch.crcInit : EncodingMatch.Statement .crcInit :=
  (by decide : headerNumber (encode .crcInit) &&& 0xFFFF = 0x0100)
theorem EncodingMatch.crcRead : EncodingMatch.Statement .crcRead :=
  (by decide : headerNumber (encode .crcRead) &&& 0xFFFF = 0x0300)
theorem EncodingMatch.chkInit : EncodingMatch.Statement .chkInit :=
  (by decide : headerNumber (encode .chkInit) &&& 0xFFFF = 0x1100)
theorem EncodingMatch.chkRead : EncodingMatch.Statement .chkRead :=
  (by decide : headerNumber (encode .chkRead) &&& 0xFFFF = 0x1300)

theorem EncodingMatch.crcByte (d : Byte) : EncodingMatch.Statement (.crcByte d) :=
  (congrArg (· &&& 0xFF00) (toNat_portWord 0x02 d)).trans (portWord_and_ff00 0x02 d)

theorem EncodingMatch.chkByte (d : Byte) : EncodingMatch.Statement (.chkByte d) :=
  (congrArg (· &&& 0xFF00) (toNat_portWord 0x12 d)).trans (portWord_and_ff00 0x12 d)

theorem EncodingMatch.crc32Dev (start count : Word) : EncodingMatch.Statement (.crc32Dev start count) := by
  have h : ∀ cks : Fin 256, (15 * 2 ^ 16 + cks.val * 2 ^ 8 + 0x27) &&& 0xFF00FF = 0x0F0027 := by decide +kernel
  exact h ⟨_, (checksum 0x27 (crc32Payload Config.params start count)).isLt⟩

theorem EncodingMatch.wirePing (len cks : Byte) (p : List Byte) : EncodingMatch.Statement (.wirePing len cks p) :=
  header_and_ff len cks 0x20
theorem EncodingMatch.wireDownload (len cks : Byte) (p : List Byte) : EncodingMatch.Statement (.wireDownload len cks p) :=
  header_and_ff len cks 0x21
theorem EncodingMatch.wireGetStatus (len cks : Byte) (p : List Byte) : EncodingMatch.Statement (.wireGetStatus len cks p) :=
  header_and_ff len cks 0x23
theorem EncodingMatch.wireSendData (len cks : Byte) (p : List Byte) : EncodingMatch.Statement (.wireSendData len cks p) :=
  header_and_ff len cks 0x24
theorem EncodingMatch.wireReset (len cks : Byte) (p : List Byte) : EncodingMatch.Statement (.wireReset len cks p) :=
  header_and_ff len cks 0x25
theorem EncodingMatch.wireSectorErase (len cks : Byte) (p : List Byte) :
    EncodingMatch.Statement (.wireSectorErase len cks p) := header_and_ff len cks 0x26
theorem EncodingMatch.wireGetChipId (len cks : Byte) (p : List Byte) : EncodingMatch.Statement (.wireGetChipId len cks p) :=
  header_and_ff len cks 0x28
theorem EncodingMatch.wireMemoryRead (len cks : Byte) (p : List Byte) :
    EncodingMatch.Statement (.wireMemoryRead len cks p) := header_and_ff len cks 0x2A
theorem EncodingMatch.wireMemoryWrite (len cks : Byte) (p : List Byte) :
    EncodingMatch.Statement (.wireMemoryWrite len cks p) := header_and_ff len cks 0x2B
theorem EncodingMatch.wireBankErase (len cks : Byte) (p : List Byte) : EncodingMatch.Statement (.wireBankErase len cks p) :=
  header_and_ff len cks 0x2C
theorem EncodingMatch.wireSetCcfg (len cks : Byte) (p : List Byte) : EncodingMatch.Statement (.wireSetCcfg len cks p) :=
  header_and_ff len cks 0x2D

theorem EncodingMatch.crc32Pseudo (bytes : List Byte) : EncodingMatch.Statement (.crc32Pseudo bytes) :=
  ⟨portWord 0x01 0, portWord 0x03 0, bytes.map (portWord 0x02), rfl, .inl (by decide)⟩

theorem EncodingMatch.checksumPseudo (opc : Byte) (bytes : List Byte) : EncodingMatch.Statement (.checksumPseudo opc bytes) :=
  ⟨portWord 0x11 0, portWord 0x13 0, portWord 0x12 opc :: bytes.map (portWord 0x12), rfl, .inr (by decide)⟩

end Sys2Proof.Laws
end

