-- ==== Sys2Proof/Laws/Run.lean ====
section
/-! SUPPORT. Running the machine, one step at a time. -/

namespace Sys2Proof.Machine

theorem run_zero (s : State) : Sys2Proof.core.run 0 s = .next s := rfl

/-- A run goes on after a step that answers a next state. -/
theorem run_succ_of_next {s t : State} (k : Nat) (h : step s = .next t) :
    Sys2Proof.core.run (k + 1) s = Sys2Proof.core.run k t := by
  have h' : Sys2Proof.core.step s = .next t := h
  simp only [Host.Core.run, h']

/-- Inside an exchange a step is one `tick` of the sequencer. -/
theorem step_of_awaiting {s : State} (h : s.seq.phase = .awaitingResponse) : step s = .next (tick Config.params s) := by
  simp only [step, h]

/-- Between exchanges an operation that decodes to an instruction is executed. -/
theorem step_of_instr {s : State} {x : Issue} {i : Instr} {rest : List HostInput} (h : s.seq.phase = .done)
    (hp : s.pending = .issue x :: rest) (hd : decode x = .instr i) : step s = exec i (s.setPending rest) := by
  simp only [step, h, fetch, hp, hd]

/-- All that a step can do where it answers a next state: a tick of the exchange in progress; nothing, with nothing to do; the
instruction that the oldest input decodes to; the error of a reserved port word; the effect of an input that is no operation. -/
theorem step_cases {s t : State} (h : step s = .next t) :
    (s.seq.phase = .awaitingResponse ∧ t = tick Config.params s) ∨
    (s.seq.phase = .done ∧ s.pending = [] ∧ t = s) ∨
    (s.seq.phase = .done ∧ ∃ x i rest, s.pending = .issue x :: rest ∧ decode x = .instr i ∧
      exec i (s.setPending rest) = .next t) ∨
    (s.seq.phase = .done ∧ ∃ x w rest, s.pending = .issue x :: rest ∧ decode x = .rejected (.reserved w) ∧
      t = (s.setPending rest).raise ⟨.reservedWord, .portWord w⟩) ∨
    (s.seq.phase = .done ∧ ∃ x rest, s.pending = x :: rest ∧ (∀ y, x ≠ .issue y) ∧
      applyInput Config.params x (s.setPending rest) = .next t) := by
  simp only [step] at h
  split at h
  next hp => exact .inl ⟨hp, (Host.Outcome.next.inj h).symm⟩
  next hp =>
    refine .inr ?_
    simp only [fetch] at h
    split at h
    next hf =>
      split at hf
      next hq => exact .inl ⟨hp, hq, (Host.Outcome.next.inj h).symm⟩
      next hq => split at hf <;> cases hf
      next => cases hf
    next i u hf =>
      split at hf
      next => cases hf
      next x rest hq =>
        split at hf
        next j hd =>
          cases hf
          exact .inr (.inl ⟨hp, x, i, rest, hq, hd, h⟩)
        next => cases hf
      next => cases hf
    next e u hf =>
      split at hf
      next => cases hf
      next x rest hq =>
        split at hf
        next => cases hf
        next e' hd =>
          cases hf
          cases e <;> cases h
          exact .inr (.inr (.inl ⟨hp, x, _, rest, hq, hd, rfl⟩))
      next => cases hf
    next x u hf =>
      split at hf
      next => cases hf
      next => split at hf <;> cases hf
      next y rest hy hq =>
        cases hf
        exact .inr (.inr (.inr ⟨hp, x, rest, hq, hy, h⟩))

end Sys2Proof.Machine
end

