-- ==== Sys2Proof/Laws/Script.lean ====
section
/-! SUPPORT. What `RecvExact` does on a script of answers (42_crc32_command.md R130). What it keeps is in `recvExact_spec`. -/

namespace Sys2Proof.Machine

/-- The loop of `RecvExact` over answers that bring exactly the missing bytes, within the budget: it collects them, and leaves
unread only empty answers that stood at the end. -/
theorem recvLoop_script (p : Params) (n fuel : Nat) (s : State) (xs rest : List (List Byte))
    (hr : s.link.reads = xs ++ rest) (hl : s.seq.out.length + xs.flatten.length = n)
    (ha : s.seq.attempts + xs.count [] ≤ p.crcDataRetries)
    (hf : n - s.seq.out.length + (p.crcDataRetries + 1 - s.seq.attempts) ≤ fuel) :
    ∃ ys zs, xs = ys ++ zs ∧ zs.flatten = [] ∧ (recvLoop p n fuel s).1 = true ∧
      (recvLoop p n fuel s).2.seq.out = s.seq.out ++ xs.flatten ∧
      (recvLoop p n fuel s).2.seq.attempts = s.seq.attempts + ys.count [] ∧
      (recvLoop p n fuel s).2.link.reads = zs ++ rest := by
  induction xs generalizing s fuel with
  | nil =>
    simp only [List.flatten_nil, List.length_nil, Nat.add_zero] at hl
    refine ⟨[], [], rfl, rfl, ?_⟩
    cases fuel <;> simp [recvLoop, hl, hr]
  | cons x xs ih =>
    cases fuel with
    | zero => omega
    | succ fuel =>
      by_cases hn : n ≤ s.seq.out.length
      · have h0 : (x :: xs).flatten.length = 0 := by omega
        refine ⟨[], x :: xs, rfl, List.length_eq_zero_iff.mp h0, ?_⟩
        simp [recvLoop, hn, hr, List.length_eq_zero_iff.mp h0]
      · simp only [List.flatten_cons, List.length_append] at hl
        have htake : x.take (n - s.seq.out.length) = x := List.take_of_length_le (by omega)
        rw [recvLoop, if_neg hn]
        simp only [txRead_scripted _ s x (xs ++ rest) hr, htake]
        split
        next hx =>
          subst hx
          simp only [List.count_cons_self] at ha
          rw [if_neg (by simp only [State.countAttempt_attempts, State.setLink_seq]; omega)]
          obtain ⟨ys, zs, h1, h2, h3, h4, h5, h6⟩ := ih fuel
            (s.setLink { s.link with reads := xs ++ rest, nReads := s.link.nReads + 1 }).countAttempt rfl
            (by simpa using hl) (by simp only [State.countAttempt_attempts, State.setLink_seq]; omega)
            (by simp only [State.countAttempt_attempts, State.countAttempt_out, State.setLink_seq]; omega)
          refine ⟨[] :: ys, zs, by rw [h1]; rfl, h2, h3, h4.trans rfl, h5.trans ?_, h6⟩
          simp only [State.countAttempt_attempts, State.setLink_seq, List.count_cons_self]
          omega
        next hx =>
          have hpos : 0 < x.length := List.length_pos_iff.mpr hx
          have hc : (x :: xs).count [] = xs.count [] := List.count_cons_of_ne hx
          rw [hc] at ha
          obtain ⟨ys, zs, h1, h2, h3, h4, h5, h6⟩ := ih fuel
            ((s.setLink { s.link with reads := xs ++ rest, nReads := s.link.nReads + 1 }).setOut (s.seq.out ++ x)) rfl
            (by simp only [State.setOut_out, List.length_append]; omega) ha
            (by simp only [State.setOut_out, State.setOut_attempts, State.setLink_seq, List.length_append]; omega)
          refine ⟨x :: ys, zs, by rw [h1]; rfl, h2, h3, h4.trans (by simp), h5.trans ?_, h6⟩
          rw [List.count_cons_of_ne hx]
          rfl

/-- The loop of `RecvExact` over answers too short, the last of them the empty read that passes the budget: it answers `short`
and has read them all. -/
theorem recvLoop_short (p : Params) (n fuel : Nat) (s : State) (xs rest : List (List Byte))
    (hr : s.link.reads = xs ++ rest) (hl : s.seq.out.length + xs.flatten.length < n)
    (ha : s.seq.attempts + xs.count [] = p.crcDataRetries + 1) (hx : xs.getLast? = some [])
    (hf : n - s.seq.out.length + (p.crcDataRetries + 1 - s.seq.attempts) ≤ fuel) :
    (recvLoop p n fuel s).1 = false ∧ (recvLoop p n fuel s).2.link.reads = rest := by
  induction xs generalizing s fuel with
  | nil => simp at hx
  | cons x xs ih =>
    cases fuel with
    | zero => omega
    | succ fuel =>
      simp only [List.flatten_cons, List.length_append] at hl
      have htake : x.take (n - s.seq.out.length) = x := List.take_of_length_le (by omega)
      rw [recvLoop, if_neg (by omega)]
      simp only [txRead_scripted _ s x (xs ++ rest) hr, htake]
      cases xs with
      | nil =>
        obtain rfl : x = [] := by simpa using hx
        simp only [List.count_cons_self, List.count_nil] at ha
        rw [if_pos rfl, if_pos (by simp only [State.countAttempt_attempts, State.setLink_seq]; omega)]
        exact ⟨rfl, rfl⟩
      | cons y ys =>
        have hx' : (y :: ys).getLast? = some [] := by simpa [List.getLast?_cons] using hx
        have hcount : 0 < (y :: ys).count [] := List.count_pos_iff.mpr (List.mem_of_getLast? hx')
        split
        next h =>
          subst h
          simp only [List.count_cons_self] at ha
          rw [if_neg (by simp only [State.countAttempt_attempts, State.setLink_seq]; omega)]
          exact ih fuel _ rfl (by simpa using hl) (by simp only [State.countAttempt_attempts, State.setLink_seq]; omega) hx'
            (by simp only [State.countAttempt_attempts, State.countAttempt_out, State.setLink_seq]; omega)
        next h =>
          have hpos : 0 < x.length := List.length_pos_iff.mpr h
          rw [List.count_cons_of_ne h] at ha
          exact ih fuel _ rfl (by simp only [State.setOut_out, State.setLink_seq, List.length_append]; omega) ha hx'
            (by simp only [State.setOut_out, State.setOut_attempts, State.setLink_seq, List.length_append]; omega)

/-- `RecvExact(n)` over answers that bring exactly `n` bytes, within the budget. -/
theorem recvExact_script (p : Params) (n : Nat) (s : State) (xs rest : List (List Byte))
    (hr : s.link.reads = xs ++ rest) (hl : xs.flatten.length = n)
    (ha : s.seq.attempts + xs.count [] ≤ p.crcDataRetries) :
    ∃ ys zs, xs = ys ++ zs ∧ zs.flatten = [] ∧ (recvExact p n s).1 = some xs.flatten ∧
      (recvExact p n s).2.seq.attempts = s.seq.attempts + ys.count [] ∧
      (recvExact p n s).2.link.reads = zs ++ rest := by
  obtain ⟨ys, zs, h1, h2, h3, h4, h5, h6⟩ := recvLoop_script p n (p.crcDataRetries + 1 - s.seq.attempts + n) (s.setOut [])
    xs rest hr (by simpa using hl) (by simpa using ha)
    (by simp only [State.setOut_out, State.setOut_attempts, List.length_nil]; omega)
  refine ⟨ys, zs, h1, h2, ?_⟩
  simp only [recvExact, h3, if_true]
  exact ⟨by rw [h4]; rfl, h5, h6⟩

/-- `RecvExact(n)` over answers too short, the last of them the empty read that passes the budget. -/
theorem recvExact_short (p : Params) (n : Nat) (s : State) (xs rest : List (List Byte))
    (hr : s.link.reads = xs ++ rest) (hl : xs.flatten.length < n)
    (ha : s.seq.attempts + xs.count [] = p.crcDataRetries + 1) (hx : xs.getLast? = some []) :
    (recvExact p n s).1 = none ∧ (recvExact p n s).2.link.reads = rest := by
  obtain ⟨h1, h2⟩ := recvLoop_short p n (p.crcDataRetries + 1 - s.seq.attempts + n) (s.setOut [])
    xs rest hr (by simpa using hl) (by simpa using ha) hx
    (by simp only [State.setOut_out, State.setOut_attempts, List.length_nil]; omega)
  simp only [recvExact, h1, Bool.false_eq_true, if_false]
  exact ⟨trivial, h2⟩

end Sys2Proof.Machine
end

