-- ==== Sys2Proof/Tests/Slice0.lean ====
section
/-! SUPPORT. Tests. Expected values are those of spec/95_test_vectors.md (its table or script is named) or written out by hand
from the rule named. The `test_witness_…` theorems show values that meet the hypotheses of the statement named. -/

namespace Sys2Proof.Tests

open Machine

/-! ### Helpers -/

/-- The geometry of 95_test_vectors.md 2.7. -/
def session27 : Session := ⟨true, true, 0x20000, 0x5000, .rev2⟩

/-- A state with that session. -/
def base : State := { State.reset with session := session27 }

/-- `base` with these inputs next. -/
def queued (q : List HostInput) : State := { base with pending := q }

/-- `base` with this transport script. -/
def script (reads : List (List Byte)) (writes : List Bool) : State :=
  { base with link := { base.link with reads := reads, writes := writes } }

/-- A parameter record with values for the OPEN parameters, of which none is 0 (E4 of 95_test_vectors.md 2.8 needs that). -/
def tp : Params := { Config.params with crcDataRetries := 2, ackByte := 0xCC, nakByte := 0x33 }

/-- The state that an outcome goes on to. -/
def after : Host.Outcome State Fault Refusal → Option State
  | .next s => some s
  | .fault _ => none
  | .refused _ => none

/-- What an operation returned. -/
def resultOf (o : Host.Outcome State Fault Refusal) : Option OpResult := (after o).bind State.result

/-- The kind of error that an exchange ended with, and the bytes it wrote after the command. -/
def errorAndWrites (s : State) : Option ErrKind × List (List Byte) :=
  (match s.result with
    | some (.err e) => some e.kind
    | _ => none,
   s.link.sent.tail.map WriteRecord.bytes)

/-- In that session the range of 95_test_vectors.md 2.8 is admitted. -/
theorem admitted_digits (s : State) (h : s.session = session27) : Admitted 0 9 s := by
  unfold Admitted
  rw [h]
  decide

/-- ASCII "123456789". -/
def digits : List Byte := [0x31, 0x32, 0x33, 0x34, 0x35, 0x36, 0x37, 0x38, 0x39]

/-- `ACK_BYTE` as an answer. -/
def ackRead : List Byte := [Config.params.ackByte]

/-- `NAK_BYTE` as an answer. -/
def nakRead : List Byte := [Config.params.nakByte]

/-! ### Well-formedness -/

/-- 30_encoding.md R63: a ping packet is `[3, 0x20, 0x20]`; the length check refuses another length, the check-byte check another
check byte. -/
theorem test_wellFormed_checks :
    (Instr.wirePing 0x03 0x20 []).wellFormed = true ∧
    lengthOk 0x04 [] = false ∧ (Instr.wirePing 0x04 0x20 []).wellFormed = false ∧
    checkOk 0x20 0x21 [] = false ∧ (Instr.wirePing 0x03 0x21 []).wellFormed = false := by decide

/-- Each command's check byte counts its own opcode. -/
theorem test_wellFormed_opcodes :
    [Instr.wirePing 3 0 [], .wireDownload 3 0 [], .wireGetStatus 3 0 [], .wireSendData 3 0 [], .wireReset 3 0 [],
      .wireSectorErase 3 0 [], .wireGetChipId 3 0 [], .wireMemoryRead 3 0 [], .wireMemoryWrite 3 0 [],
      .wireBankErase 3 0 [], .wireSetCcfg 3 0 []].all (fun i => !i.wellFormed) = true ∧
    [Instr.wirePing 3 0x20 [], .wireDownload 3 0x21 [], .wireGetStatus 3 0x23 [], .wireSendData 3 0x24 [],
      .wireReset 3 0x25 [], .wireSectorErase 3 0x26 [], .wireGetChipId 3 0x28 [], .wireMemoryRead 3 0x2A [],
      .wireMemoryWrite 3 0x2B [], .wireBankErase 3 0x2C [], .wireSetCcfg 3 0x2D []].all Instr.wellFormed = true := by decide

/-! ### Decoding of words written out -/

/-- 30_encoding.md R61: `op` in bits 15..8, the operand in bits 7..0. -/
theorem test_decode_port :
    decode (.port [0b0000000100000000]) = .instr .crcInit ∧
    decode (.port [0b0000001010100101]) = .instr (.crcByte 0b10100101) ∧
    decode (.port [0b0000001100000000]) = .instr .crcRead ∧
    decode (.port [0b0001000100000000]) = .instr .chkInit ∧
    decode (.port [0b0001001010100101]) = .instr (.chkByte 0b10100101) ∧
    decode (.port [0b0001001100000000]) = .instr .chkRead := by decide

/-- 95_test_vectors.md 2.6: the packet of `CRC32.DEV 0x0001F000, 0x1000`. -/
theorem test_decode_crc32Dev :
    decode (.packet [0x0F, 0x28, 0x27, 0x00, 0x01, 0xF0, 0x00, 0x00, 0x00, 0x10, 0x00, 0x00, 0x00, 0x00, 0x00]) =
      .instr (.crc32Dev 0x0001F000 0x00001000) := by decide

/-- 30_encoding.md R69, one packet of each command. -/
theorem test_decode_wire :
    decode (.packet [3, 0x20, 0x20]) = .instr (.wirePing 3 0x20 []) ∧
    decode (.packet [5, 0x24, 0x21, 1, 2]) = .instr (.wireDownload 5 0x24 [1, 2]) ∧
    decode (.packet [3, 0x23, 0x23]) = .instr (.wireGetStatus 3 0x23 []) ∧
    decode (.packet [4, 0x2B, 0x24, 7]) = .instr (.wireSendData 4 0x2B [7]) ∧
    decode (.packet [3, 0x25, 0x25]) = .instr (.wireReset 3 0x25 []) ∧
    decode (.packet [4, 0x27, 0x26, 1]) = .instr (.wireSectorErase 4 0x27 [1]) ∧
    decode (.packet [3, 0x28, 0x28]) = .instr (.wireGetChipId 3 0x28 []) ∧
    decode (.packet [4, 0x2B, 0x2A, 1]) = .instr (.wireMemoryRead 4 0x2B [1]) ∧
    decode (.packet [4, 0x2C, 0x2B, 1]) = .instr (.wireMemoryWrite 4 0x2C [1]) ∧
    decode (.packet [3, 0x2C, 0x2C]) = .instr (.wireBankErase 3 0x2C []) ∧
    decode (.packet [4, 0x2E, 0x2D, 1]) = .instr (.wireSetCcfg 4 0x2E [1]) := by decide

/-- 30_encoding.md R72: the expansions of `CRC32 [0x31, 0x32]` and `CHECKSUM 0x27, [0x01]`. -/
theorem test_decode_expansions :
    decode (.port [0x0100, 0x0231, 0x0232, 0x0300]) = .instr (.crc32Pseudo [0x31, 0x32]) ∧
    decode (.port [0x1100, 0x1227, 0x1201, 0x1300]) = .instr (.checksumPseudo 0x27 [0x01]) := by decide

/-- 95_test_vectors.md 2.4, and every other thing that is refused. -/
theorem test_decode_rejects :
    [0x0000, 0x0101, 0x1301, 0x04AB, 0xFFFF].all
      (fun w => decode (.port [w]) == .rejected (.reserved w)) = true ∧
    decode (.packet [3, 0x22, 0x22]) = .rejected (.wireOpcode 0x22) ∧
    decode (.packet [3, 0x27, 0x27]) = .rejected .badCrc32Packet ∧
    decode (.packet [3, 0x27]) = .rejected .truncatedPacket ∧
    decode (.port [0x0100, 0x0300, 0x0300]) = .rejected .notOneOperation := by decide

/-- The opcode table's own numbering: port rows, the CRC32 header with its other bytes zero, a wire header. -/
theorem test_decodeTableWord :
    decodeTableWord 16 0x0100 = some .crcInit ∧ decodeTableWord 16 0x02A5 = some (.crcByte 0xA5) ∧
    decodeTableWord 24 0x0F0027 = some (.crc32Dev 0 0) ∧ decodeTableWord 24 0x032020 = some (.wirePing 3 0x20 []) ∧
    decodeTableWord 8 0x2D = some (.wireSetCcfg 0 0 []) := by decide

/-- A table word placed after reset is what the next step runs. -/
theorem test_withFetchWord :
    step (State.reset.withFetchWord 16 0x0100) = exec .crcInit State.reset ∧
    step (State.reset.withFetchWord 24 0x0F0027) = exec (.crc32Dev 0 0) State.reset := ⟨rfl, rfl⟩

/-! ### Instructions -/

/-- 95_test_vectors.md P1, lines 1 and 2. -/
theorem test_crcByte : (after (exec (.crcByte 0x31) { base with acc := .val 0xFFFFFFFF })).map State.acc =
    some (.val 0x7C231048) := by decide +kernel

/-- 95_test_vectors.md 2.4: CRC.INIT on an unset register, and CRC.READ after it. -/
theorem test_crcInit_crcRead :
    (after (exec .crcInit base)).map State.acc = some (.val 0xFFFFFFFF) ∧
    resultOf (exec .crcRead { base with acc := .val 0xFFFFFFFF }) = some (.ok (.u32 0)) := by decide

/-- 95_test_vectors.md 2.5: the sum wraps. -/
theorem test_chkByte :
    (after (exec (.chkByte 0x01) { base with chk := .val 0xFF })).map State.chk = some (.val 0x00) ∧
    (after (exec (.chkByte 0xFF) { base with chk := .val 0x27 })).map State.chk = some (.val 0x26) := by decide

/-- 41_checksum.md R101 and R103. -/
theorem test_chkInit_chkRead :
    (after (exec .chkInit base)).map State.chk = some (.val 0x00) ∧
    resultOf (exec .chkRead { base with chk := .val 0x26 }) = some (.ok (.u8 0x26)) := by decide

/-- 95_test_vectors.md P4: an unset register and a reserved word are logged, as codes 7 and 6. -/
theorem test_faults :
    (after (exec .crcRead base)).map (fun s => s.faultLog.map ErrInfo.code) = some [7] ∧
    (after (step (queued [.issue (.port [0x0001])]))).map (fun s => (s.faultLog.map ErrInfo.code, s.acc)) =
      some ([6], .unset) := by decide

/-- 95_test_vectors.md 2.2: "123456789", and `ACC` after it. -/
theorem test_crc32Pseudo :
    resultOf (exec (.crc32Pseudo digits) base) = some (.ok (.u32 0xCBF43926)) ∧
    (after (exec (.crc32Pseudo digits) base)).map State.acc = some (.val 0x340BC6D9) := by decide +kernel

/-- 95_test_vectors.md P2. -/
theorem test_checksumPseudo :
    resultOf (exec (.checksumPseudo 0x27 [0, 0, 0, 0, 0, 0, 0x10, 0, 0, 0, 0, 0]) base) = some (.ok (.u8 0x37)) := by
  decide

/-- 95_test_vectors.md 2.8, E1, E2, E4, E11 and E15: the value, and the one ACK written after the command. -/
theorem test_exchange_answers :
    [script [[0xCC], [0x06], [0x1E], [0xCB, 0xF4], [0x39, 0x26]] [true, true],
      script [[], [], [], [], [], [0xCC], [0x06, 0x1E], [0xCB, 0xF4, 0x39, 0x26]] [true, true],
      script [[0x00], [0xCC], [0x06, 0x1E], [0xCB, 0xF4, 0x39, 0x26]] [true, true],
      script [[0xCC], [0x06, 0x1E], [0xCB], [], [], [0xF4, 0x39, 0x26]] [true, true],
      script [[0xCC], [], [0x06, 0x1E], [], [0xCB, 0xF4, 0x39, 0x26]] [true, true]].all (fun s =>
        (crc32Dev tp 0 9 s).result == some (.ok (.u32 0xCBF43926)) &&
        (crc32Dev tp 0 9 s).link.sent ==
          [⟨[0x0F, 0x30, 0x27, 0, 0, 0, 0, 0, 0, 0, 9, 0, 0, 0, 0], true⟩, ⟨[0xCC], true⟩]) = true := by decide +kernel

/-- 95_test_vectors.md 2.8, E3, E5 to E10, E12 to E14: the kind of the error, and what was written after the command. -/
theorem test_exchange_errors :
    [script [[], [], [], [], [], []] [true, true],
      script [[0x33]] [true, true],
      script [[0xCC], [0x05, 0xF8], [0xCB, 0xF4, 0x39]] [true, true],
      script [[0xCC], [0x06, 0x1F], [0xCB, 0xF4, 0x39, 0x26]] [true, true],
      script [[0xCC], [0x07, 0x1E], [0xCB, 0xF4, 0x39, 0x26, 0x00]] [true, true],
      script [[0xCC], [0x01, 0x00]] [true, true],
      script [[0xCC], [0x06, 0x1E], [0xCB], [], [], []] [true, true],
      script [[0xCC], [0x02, 0x00]] [true, true],
      script [] [false],
      script [[0xCC], [0x06, 0x1E], [0xCB, 0xF4, 0x39, 0x26]] [true, false]].map
        (fun s => errorAndWrites (crc32Dev tp 0 9 s)) =
    [(some .timeoutError, []), (some .protocolError, []), (some .protocolError, [[0x33]]), (some .protocolError, [[0x33]]),
      (some .protocolError, [[0x33]]), (some .protocolError, [[0x33]]), (some .protocolError, [[0x33]]),
      (some .protocolError, [[0x33]]), (some .portError, []), (some .portError, [[0xCC]])] := by decide +kernel

/-- The first tick of 95_test_vectors.md E1: the ACK has come, and the sequencer goes on to the reply. -/
theorem test_tick :
    (tick tp { script [[0xCC]] [] with seq := ⟨.awaitingResponse, .ack, 0, [], []⟩ }).seq =
      ⟨.awaitingResponse, .data, 0, [], []⟩ := by decide

/-- 95_test_vectors.md P5b: another CRC is a mismatch, an equal one a pass. -/
theorem test_verdict :
    verdictOf tp digits (.ok (.u32 0xCBF43926)) = .ok (.verdict .pass) ∧
    verdictOf tp digits (.ok (.u32 0x94F1B12E)) = .ok (.verdict .mismatch) := by decide +kernel

/-- The eleven commands of other layers refuse, each with its opcode (30_encoding.md R69). -/
theorem test_wire_refused : step (queued [.issue (.packet [3, 0x25, 0x25])]) = .refused (.wireOpcode 0x25) := rfl

/-! ### Witnesses: port operations -/

theorem test_witness_AccBelongsToCrcOperations :
    (∃ t, exec .crcInit base = .next t) ∧ (∃ t, exec (.crcByte 0xFF) { base with acc := .val 0 } = .next t) ∧
    (∃ t, exec .crcRead { base with acc := .val 0xFFFFFFFF } = .next t) ∧
    (∃ t, UsesAcc .chkInit = false ∧ exec .chkInit base = .next t) ∧
    (∃ t, UsesAcc (.crc32Dev 0 9) = false ∧ exec (.crc32Dev 0 9) base = .next t) :=
  ⟨⟨_, rfl⟩, ⟨_, rfl⟩, ⟨_, rfl⟩, ⟨_, rfl, rfl⟩, ⟨_, rfl, rfl⟩⟩

theorem test_witness_ChkBelongsToChkOperations :
    (∃ t, exec .chkInit base = .next t) ∧ (∃ t, exec (.chkByte 0xFF) (chkBytes [0x01] (chkInit base)) = .next t) ∧
    (∃ t, exec .chkRead { base with chk := .val 0xFF } = .next t) ∧
    (∃ t, UsesChk .crcInit = false ∧ exec .crcInit base = .next t) ∧
    (∃ t, UsesChk (.crc32Dev 0 9) = false ∧ exec (.crc32Dev 0 9) base = .next t) :=
  ⟨⟨_, rfl⟩, ⟨_, rfl⟩, ⟨_, rfl⟩, ⟨_, rfl, rfl⟩, ⟨_, rfl, rfl⟩⟩

/-- Also of ResetValuesChosen. -/
theorem test_witness_SessionStartResetsBlock :
    (queued [.sessionStart]).seq.phase = .done ∧ (queued [.sessionStart]).pending = .sessionStart :: [] := ⟨rfl, rfl⟩

theorem test_witness_StepRunsTheDecodedInstruction :
    ((queued [.issue (.port [0x0231])]).seq.phase = .done ∧
      (queued [.issue (.port [0x0231])]).pending = .issue (.port [0x0231]) :: [] ∧
      decode (.port [0x0231]) = .instr (.crcByte 0x31)) ∧
    (base.seq.phase = .done ∧ base.pending = []) ∧
    (base.setPhase .awaitingResponse).seq.phase = .awaitingResponse := by decide

theorem test_witness_PlacedTableWordRunsNext :
    base.seq.phase = .done ∧ decodeTableWord 16 0x12FF = some (.chkByte 0xFF) ∧
    decodeTableWord 24 0x0F0027 = some (.crc32Dev 0 0) := by decide

theorem test_witness_EncodeDecodePortWord : decode (.port [0x02FF]) = .instr (.crcByte 0xFF) := by decide

/-- Reserved words beside the assigned ones, with all the hypotheses on the last of them. -/
theorem test_witness_ReservedPortWordsAreUnsupported :
    ¬ AssignedPortWord 0x0000 ∧ ¬ AssignedPortWord 0x00FF ∧ ¬ AssignedPortWord 0x0101 ∧ ¬ AssignedPortWord 0x0301 ∧
    ¬ AssignedPortWord 0x1000 ∧ ¬ AssignedPortWord 0x1400 ∧
    (¬ AssignedPortWord 0xFFFF ∧ (queued [.issue (.port [0xFFFF])]).seq.phase = .done ∧
      (queued [.issue (.port [0xFFFF])]).pending = .issue (.port [0xFFFF]) :: [] ∧
      ∃ t, step (queued [.issue (.port [0xFFFF])]) = .next t) := by
  refine ⟨?_, ?_, ?_, ?_, ?_, ?_, ?_, rfl, rfl, ⟨_, rfl⟩⟩ <;> unfold AssignedPortWord <;> decide

theorem test_witness_CommandPacketLayout :
    ([] : List Byte).length ≤ 252 ∧ (List.replicate 252 (0xFF : Byte)).length ≤ 252 :=
  ⟨by decide, List.length_replicate.le⟩

theorem test_witness_ReplyPacketLayout :
    ([] : List Byte).length ≤ 253 ∧ (List.replicate 253 (0xFF : Byte)).length ≤ 253 ∧
    ([0xCB, 0xF4, 0x39, 0x26] : List Byte).length = 4 := ⟨by decide, List.length_replicate.le, rfl⟩

theorem test_witness_StreamSplitsAtPacketEnd :
    ([] : List Byte).length ≤ 252 ∧ (List.replicate 252 (0xFF : Byte)).length ≤ 252 ∧
    2 < (commandPacket 0x20 []).length := ⟨by decide, List.length_replicate.le, by decide⟩

theorem test_witness_OtherWirePacketsRefused :
    (0x26 : Byte) ≠ 0x27 ∧ (0xFF : Byte) ≠ 0x27 ∧ base.seq.phase = .done ∧
    (queued [.issue (.packet [3, 0xFF, 0xFF])]).pending = .issue (.packet (3 :: 0xFF :: 0xFF :: [])) :: [] := by decide

/-- A good packet with a check byte of its own, and packets that are too short, too long, or have a repeat count. -/
theorem test_witness_MalformedCrc32PacketRefused :
    ((queued [.issue (.packet (0x0F :: 0 :: 0x27 :: List.replicate 12 0))]).seq.phase = .done ∧
      (queued [.issue (.packet (0x0F :: 0 :: 0x27 :: List.replicate 12 0))]).pending =
        .issue (.packet (0x0F :: 0 :: 0x27 :: List.replicate 12 0)) :: []) ∧
    ((0x0F : Byte) = 0x0F ∧ (List.replicate 12 (0 : Byte)).length = 12 ∧
      (List.replicate 12 (0 : Byte)).drop 8 = [0, 0, 0, 0]) ∧
    ¬ (List.replicate 11 (0 : Byte)).length = 12 ∧ ¬ (List.replicate 13 (0 : Byte)).length = 12 ∧
    ¬ (List.replicate 11 (0 : Byte) ++ [1]).drop 8 = [0, 0, 0, 0] := by decide

theorem test_witness_PseudoInstructionsExpand :
    (queued ((expandCrc32 [0x31]).map (fun w => .issue (.port [w])))).seq.phase = .done ∧
    (queued ((expandCrc32 [0x31]).map (fun w => .issue (.port [w])))).pending =
      (expandCrc32 [0x31]).map (fun w => .issue (.port [w])) ++ [] ∧
    (queued ((expandChecksum 0x20 []).map (fun w => .issue (.port [w])))).pending =
      (expandChecksum 0x20 []).map (fun w => .issue (.port [w])) ++ [] := by decide

/-- CRC.INIT, CRC.BYTE, CRC.READ and the streaming law: a nonzero operand byte, a set and an unset register, a next state. -/
theorem test_witness_CrcEffects :
    (0x01 : Byte) ≠ 0 ∧ (0xFF : Byte) ≠ 0 ∧ { base with acc := .val 0xFFFFFFFF }.acc = .val 0xFFFFFFFF ∧ base.acc = .unset ∧
    (∃ t, exec (.crcByte 0x31) base = .next t) ∧ (∃ t, exec .crcRead base = .next t) ∧
    (∃ t, exec .crcRead { base with acc := .val 0xFFFFFFFF } = .next t) ∧ (∃ t, exec .crcInit base = .next t) ∧
    ((queued [.issue (.port [0x01#8 ++ 0x01#8])]).seq.phase = .done ∧
      (queued [.issue (.port [0x01#8 ++ 0x01#8])]).pending = .issue (.port [0x01#8 ++ 0x01#8]) :: [] ∧
      ∃ t, step (queued [.issue (.port [0x01#8 ++ 0x01#8])]) = .next t) :=
  ⟨by decide, by decide, rfl, rfl, ⟨_, rfl⟩, ⟨_, rfl⟩, ⟨_, rfl⟩, ⟨_, rfl⟩, rfl, rfl, ⟨_, rfl⟩⟩

theorem test_witness_CrcIsAffine : ([0x12, 0x34] : List Byte).length = ([0x56, 0x78] : List Byte).length := rfl

/-- CHK.INIT, CHK.BYTE, CHK.READ: as for CRC, and two orders of the same bytes. -/
theorem test_witness_ChkEffects :
    (0x01 : Byte) ≠ 0 ∧ { base with chk := .val 0xFF }.chk = .val 0xFF ∧ base.chk = .unset ∧
    (∃ t, exec (.chkByte 0x05) base = .next t) ∧ (∃ t, exec .chkRead base = .next t) ∧ (∃ t, exec .chkInit base = .next t) ∧
    (∃ t, exec (.checksumPseudo 0x20 []) base = .next t) ∧ ([0x01, 0xFF] : List Byte).Perm [0xFF, 0x01] ∧
    ((queued [.issue (.port [0x11#8 ++ 0xFF#8])]).seq.phase = .done ∧
      (queued [.issue (.port [0x11#8 ++ 0xFF#8])]).pending = .issue (.port [0x11#8 ++ 0xFF#8]) :: [] ∧
      ∃ t, step (queued [.issue (.port [0x11#8 ++ 0xFF#8])]) = .next t) :=
  ⟨by decide, rfl, rfl, ⟨_, rfl⟩, ⟨_, rfl⟩, ⟨_, rfl⟩, ⟨_, rfl⟩, by decide, rfl, rfl, ⟨_, rfl⟩⟩

theorem test_witness_ChecksumMissesReordering : ([0x00, 0x01] : List Byte).Perm [0x01, 0x00] := by decide

/-- Codes 1 and 7 have their kinds; a code belongs to one kind. -/
theorem test_witness_ErrorKindsAndCodes :
    ErrKind.portError.code = ErrKind.portError.code ∧ ErrKind.unsetState.code = ErrKind.unsetState.code := by decide

theorem test_witness_PortFaultsCarryOn :
    base.acc = .unset ∧ base.chk = .unset ∧ ¬ AssignedPortWord 0x0000 ∧ base.seq.phase = .done ∧
    (queued [.issue (.port [0x0000])]).pending = .issue (.port [0x0000]) :: [] := by
  refine ⟨rfl, rfl, ?_, rfl, rfl⟩
  unfold AssignedPortWord
  decide

theorem test_witness_FaultLogOnlyGrows :
    (∃ t, step (queued [.issue (.port [0x0300])]) = .next t) ∧ (∃ t, step (queued [.sessionStart]) = .next t) ∧
    ∃ t, step (base.setPhase .awaitingResponse) = .next t := ⟨⟨_, rfl⟩, ⟨_, rfl⟩, ⟨_, rfl⟩⟩

/-! ### Witnesses: CRC32.DEV -/

/-- The largest RAM that a session can hold, and ranges whose last byte just passes `0xFFFFFFFF`. -/
theorem test_witness_RangePredicates :
    SessionOk ⟨true, true, 0xFF000, 0xE0000000, .unknown⟩ ∧ 0xFFFFFFFF < 0xFFFFFFFF + 2 - 1 ∧
    0xFFFFFFFF < 0xFFFFFFF0 + 0x20 - 1 := by
  refine ⟨⟨rfl, Nat.le_refl _, ?_⟩, by decide, by decide⟩
  show 0x20000000 + 0xE0000000 ≤ 2 ^ 32
  decide

/-- 95_test_vectors.md 2.7: which ranges are sent, at the ends of flash and RAM. -/
theorem test_witness_Admitted :
    Admitted 0 0x20000 base ∧ Admitted 0x1FFFF 1 base ∧ Admitted 0x20000000 0x5000 base ∧ Admitted 0x20004FFF 1 base ∧
    ¬ Admitted 0x1FFFF 2 base ∧ ¬ Admitted 0x20000 1 base ∧ ¬ Admitted 0x20004FFF 2 base ∧ ¬ Admitted 0x1FFFFFFF 2 base ∧
    ¬ Admitted 0 0 base ∧ ¬ Admitted 0xFFFFFFFF 1 base ∧ ¬ Admitted 0xFFFFFFF0 0x20 base := by
  refine ⟨?_, ?_, ?_, ?_, ?_, ?_, ?_, ?_, ?_, ?_, ?_⟩ <;> unfold Admitted <;> decide

/-- 95_test_vectors.md 2.7: each error of steps 1 and 2, in its order. -/
theorem test_witness_CrcDevPreconditions :
    resultOf (exec (.crc32Dev 0 0) State.reset) = some (.err ⟨.transportNotOpen, .none⟩) ∧
    resultOf (exec (.crc32Dev 0 0) { base with session := { session27 with linkActive := false } }) =
      some (.err ⟨.linkNotActive, .none⟩) ∧
    resultOf (exec (.crc32Dev 0 0) base) = some (.err ⟨.emptyRange, .range 0 0⟩) ∧
    resultOf (exec (.crc32Dev 0xFFFFFFF0 0x20) base) = some (.err ⟨.rangeOutside, .range 0xFFFFFFF0 0x20⟩) := by decide

/-- The two protected ranges and all of RAM, with the smallest RAM that holds them. -/
theorem test_witness_ProtectedMemoryAdmitted :
    base.session.portOpen = true ∧ base.session.linkActive = true ∧ (0x170 : Word) ≠ 0 ∧ 0x1000 ≤ base.session.ramSize ∧
    0x1000 ≤ { session27 with ramSize := 0x1000 }.ramSize ∧
    ((0x20000000 : Word).toNat = Config.bootWork.first ∧
      (0x20000000 : Word).toNat + (0x170 : Word).toNat = Config.bootWork.last + 1) ∧
    ((0x20000FC0 : Word).toNat = Config.bootStack.first ∧
      (0x20000FC0 : Word).toNat + (0x40 : Word).toNat = Config.bootStack.last + 1) ∧
    ((0x20000000 : Word).toNat = 0x20000000 ∧ (0x5000 : Word).toNat = base.session.ramSize) := by decide

theorem test_witness_CommandSentOnce :
    Admitted 0 9 (script [] [false]) ∧ (script [] [false]).link.nextAccept = false := by
  unfold Admitted
  decide

/-- A single attempt that is answered ACK, NAK or neither; the sixth and last of six. -/
theorem test_witness_RecvAckBudget :
    tp.ackByte ≠ tp.nakByte ∧
    ((script [[0xCC]] []).link.reads = [] ++ [0xCC] :: [] ∧ ([] : List (List Byte)).length ≤ 0 ∧
      ([0xCC] : List Byte).take 1 = [tp.ackByte] ∧ ([0x33] : List Byte).take 1 = [tp.nakByte] ∧
      NoAnswer tp [] ∧ NoAnswer tp [0x00]) ∧
    ((script [[], [0], [], [], [], [0xCC]] []).link.reads = [[], [0], [], [], []] ++ [0xCC] :: [] ∧
      (∀ y ∈ ([[], [0], [], [], []] : List (List Byte)), NoAnswer tp y) ∧ [[], [(0 : Byte)], [], [], []].length ≤ 5) := by
  unfold NoAnswer
  decide

theorem test_witness_RecvAckBudget_timeout :
    Admitted 0 9 (script (List.replicate 6 []) [true]) ∧ (script (List.replicate 6 []) [true]).link.nextAccept = true ∧
    (script (List.replicate 6 []) [true]).link.reads = List.replicate 6 [] ++ [] ∧
    (List.replicate 6 ([] : List Byte)).length = 6 ∧
    ∀ y ∈ List.replicate 6 ([] : List Byte), NoAnswer Config.params y := by
  refine ⟨by unfold Admitted; decide, rfl, rfl, rfl, fun y hy => ?_⟩
  rw [List.eq_of_mem_replicate hy]
  exact ⟨by simp, by simp⟩

/-- The NAK on the last attempt. -/
theorem test_witness_DeviceNakEndsExchange :
    Admitted 0 9 (script (List.replicate 5 [] ++ [nakRead]) [true]) ∧
    (script (List.replicate 5 [] ++ [nakRead]) [true]).link.nextAccept = true ∧
    (script (List.replicate 5 [] ++ [nakRead]) [true]).link.reads = List.replicate 5 [] ++ nakRead :: [] ∧
    (List.replicate 5 ([] : List Byte)).length ≤ 5 ∧
    (∀ y ∈ List.replicate 5 ([] : List Byte), NoAnswer Config.params y) ∧ nakRead.take 1 = [Config.params.nakByte] := by
  refine ⟨admitted_digits _ rfl, rfl, rfl, by decide, fun y hy => ?_, rfl⟩
  rw [List.eq_of_mem_replicate hy]
  exact ⟨by simp, by simp⟩

/-- The state in which the answers are some empty reads, an ACK, and this reply in two pieces. -/
def replied (empties : Nat) (hdr dat : List Byte) (b : Bool) : State :=
  script (List.replicate empties [] ++ [ackRead] ++ [hdr] ++ [dat] ++ []) [true, b]

/-- For any reply of at least one data byte: the hypotheses of WholeReplyJudged but for the length byte. -/
theorem replied_spells (empties : Nat) (rlen rcks d : Byte) (ds : List Byte) (b : Bool) (h : empties ≤ 5) :
    Admitted 0 9 (replied empties [rlen, rcks] (d :: ds) b) ∧
    (replied empties [rlen, rcks] (d :: ds) b).link.writes = true :: b :: [] ∧
    SpellsReply Config.params (rlen :: rcks :: d :: ds) (replied empties [rlen, rcks] (d :: ds) b).link.reads :=
  ⟨admitted_digits _ rfl, rfl, empties, [[rlen, rcks]], [d :: ds], [], rfl, h, rfl, by simp, by simp⟩

/-- A good reply after the fewest and the most empty reads, with the host's ACK taken and not; a wrong check byte; three data
bytes. -/
theorem test_witness_WholeReplyJudged :
    (∀ b, Admitted 0 9 (replied 5 [0x06, 0x1E] [0xCB, 0xF4, 0x39, 0x26] b) ∧
      (replied 5 [0x06, 0x1E] [0xCB, 0xF4, 0x39, 0x26] b).link.writes = true :: b :: [] ∧
      (0x06 : Byte).toNat = 2 + [0xCB, 0xF4, 0x39, (0x26 : Byte)].length ∧
      SpellsReply Config.params (0x06 :: 0x1E :: [0xCB, 0xF4, 0x39, 0x26])
        (replied 5 [0x06, 0x1E] [0xCB, 0xF4, 0x39, 0x26] b).link.reads ∧
      dsum [0xCB, 0xF4, 0x39, 0x26] = 0x1E) ∧
    (SpellsReply Config.params (0x06 :: 0x1F :: [0xCB, 0xF4, 0x39, 0x26])
        (replied 0 [0x06, 0x1F] [0xCB, 0xF4, 0x39, 0x26] true).link.reads ∧ dsum [0xCB, 0xF4, 0x39, 0x26] ≠ 0x1F) ∧
    (SpellsReply Config.params (0x05 :: 0xF8 :: [0xCB, 0xF4, 0x39])
        (replied 0 [0x05, 0xF8] [0xCB, 0xF4, 0x39] true).link.reads ∧
      (0x05 : Byte).toNat = 2 + [0xCB, 0xF4, (0x39 : Byte)].length ∧ dsum [0xCB, 0xF4, 0x39] = 0xF8) := by
  have h := fun b => replied_spells 5 0x06 0x1E 0xCB [0xF4, 0x39, 0x26] b (by decide)
  exact ⟨fun b => ⟨(h b).1, (h b).2.1, rfl, (h b).2.2, by decide⟩,
    ⟨(replied_spells 0 0x06 0x1F 0xCB [0xF4, 0x39, 0x26] true (by decide)).2.2, by decide⟩,
    ⟨(replied_spells 0 0x05 0xF8 0xCB [0xF4, 0x39] true (by decide)).2.2, rfl, by decide⟩⟩

/-- As many empty reads as the budget allows, and one. -/
def drained : List (List Byte) := List.replicate (Config.params.crcDataRetries + 1) []

/-- The state in which the answers are an ACK and then these. -/
def broken (hdr dat : List (List Byte)) : State := script (List.replicate 0 [] ++ [ackRead] ++ hdr ++ dat ++ []) [true, false]

theorem test_witness_drained :
    drained.flatten = [] ∧ drained.count [] = Config.params.crcDataRetries + 1 ∧ drained.getLast? = some [] := by
  refine ⟨by simp [drained], by simp [drained], ?_⟩
  rw [drained, List.replicate_succ']
  simp

/-- A header of one byte, a length byte of 1, data short by all of its bytes, each with all the other hypotheses. -/
theorem test_witness_BrokenRepliesNaked :
    (∀ hdr dat, Admitted 0 9 (broken hdr dat) ∧ (broken hdr dat).link.writes = true :: false :: [] ∧ 0 ≤ 5 ∧
      (broken hdr dat).link.reads = List.replicate 0 [] ++ [[Config.params.ackByte]] ++ hdr ++ dat ++ []) ∧
    (([0x06] :: drained).flatten.length < 2 ∧ ([0x06] :: drained).count [] = Config.params.crcDataRetries + 1 ∧
      ([0x06] :: drained).getLast? = some []) ∧
    ([[0x01], [0x00]].flatten = [0x01, (0x00 : Byte)] ∧ [[0x01], [(0x00 : Byte)]].count [] ≤ Config.params.crcDataRetries ∧
      (0x01 : Byte).toNat < 2) ∧
    ([[0x03, 0x1E]].flatten = [0x03, (0x1E : Byte)] ∧ drained.flatten.length < (0x03 : Byte).toNat - 2 ∧
      ([[0x03, 0x1E]] ++ drained).count [] = Config.params.crcDataRetries + 1 ∧ drained.getLast? = some []) := by
  obtain ⟨h1, h2, h3⟩ := test_witness_drained
  refine ⟨fun hdr dat => ⟨admitted_digits _ rfl, rfl, by decide, rfl⟩, ⟨?_, ?_, ?_⟩,
    ⟨rfl, by simp, by decide⟩, ⟨rfl, ?_, ?_, h3⟩⟩
  · simp [h1]
  · rw [List.count_cons_of_ne (by simp), h2]
  · simp [List.getLast?_cons, h3]
  · simp [h1]
  · rw [List.singleton_append, List.count_cons_of_ne (by simp), h2]

theorem test_witness_SequencerRefinesExchange :
    Admitted 0 9 (script [ackRead] [true]) ∧ (script [ackRead] [true]).link.nextAccept = true :=
  ⟨admitted_digits _ rfl, rfl⟩

/-! ### Witnesses: the device and VERIFY -/

/-- 95_test_vectors.md P5: device memory holds "123456789", and the answers are those of a conforming device. -/
def conforming (q : List HostInput) : State :=
  { replied 2 [0x06, 0x1E] [0xCB, 0xF4, 0x39, 0x26] true with
    dmem := Memory.writeBytes [] 0 digits
    pending := q }

theorem conforming_reads (q : List HostInput) :
    (conforming q).dmem.readRange (0 : Word).toNat (9 : Word).toNat = digits :=
  Memory.readRange_writeBytes [] 0 digits (Memory.rising_of_wf [] rfl)

theorem test_witness_ConformingDeviceAnswers (q : List HostInput) :
    Admitted 0 9 (conforming q) ∧ DeviceConforms Config.params 0 9 (conforming q) ∧
    (conforming q).link.writes = true :: true :: [] := by
  have hr : conformingReply Config.params digits = [0x06, 0x1E, 0xCB, 0xF4, 0x39, 0x26] := by decide +kernel
  refine ⟨admitted_digits _ rfl, ⟨rfl, ?_⟩, rfl⟩
  rw [conforming_reads, hr]
  exact (replied_spells 2 0x06 0x1E 0xCB [0xF4, 0x39, 0x26] true (by decide)).2.2

/-- What comes between a command's memory effect, with no size read, and a CRC32.DEV over it. -/
def between : List HostInput :=
  [.sessionStart, .session (.portOpen true), .session (.linkActive true), .session (.flashSizeWord 1)]

/-- A CRC32.DEV over `digits`, issued as its packet. -/
def issueDigits : HostInput := .issue (.packet (crc32Packet Config.params 0 9))

/-- The second clause: before a command's effect nothing is in device memory, and no session field is set. -/
theorem test_witness_ConformingDeviceAnswers_later :
    ∃ s u : State, s.session = ⟨false, false, 0, 0, .unknown⟩ ∧ s.seq.phase = .done ∧ s.dmem.wf = true ∧
      (0 : Word).toNat + digits.length ≤ 2 ^ 32 ∧ s.pending = .deviceWrite 0 digits :: (between ++ issueDigits :: []) ∧
      (∀ x ∈ between, ∀ a bytes, x ≠ .deviceWrite a bytes) ∧ Sys2Proof.core.run (between.length + 1) s = .next u ∧
      (0 : Word).toNat = (0 : Word).toNat + 0 ∧ 0 + (9 : Word).toNat ≤ digits.length ∧ Admitted 0 9 u ∧
      DeviceConforms Config.params 0 9 u ∧ u.link.writes = true :: true :: [] := by
  refine ⟨{ conforming (.deviceWrite 0 digits :: (between ++ issueDigits :: [])) with
      session := ⟨false, false, 0, 0, .unknown⟩, dmem := [] },
    { conforming [issueDigits] with session := ⟨true, true, 4096, 0, .unknown⟩ },
    rfl, rfl, rfl, by decide, rfl, by simp [between], rfl, rfl, by decide, ?_, ?_, rfl⟩
  · unfold Admitted
    exact ⟨rfl, rfl, by decide, .inl (by decide)⟩
  · exact (test_witness_ConformingDeviceAnswers [issueDigits]).2.1

theorem test_witness_VerifyComparesCrcs :
    (conforming [.verify digits 0]).seq.phase = .done ∧ (conforming [.verify digits 0]).pending = .verify digits 0 :: [] ∧
    digits.length < 2 ^ 32 ∧ (BitVec.ofNat 32 digits.length = 9) ∧
    ∃ t, exec (.crc32Dev 0 (BitVec.ofNat 32 digits.length)) { conforming [.verify digits 0] with pending := [] } = .next t :=
  ⟨rfl, rfl, by decide, by decide, ⟨_, rfl⟩⟩

/-- With `test_witness_ConformingDeviceAnswers` at the same state: the hypotheses of VerifyPassesOnEqualContents. -/
theorem test_witness_VerifyPassesOnEqualContents :
    (conforming [.verify digits 0]).seq.phase = .done ∧ (conforming [.verify digits 0]).pending = .verify digits 0 :: [] ∧
    digits.length < 2 ^ 32 ∧
    DeviceConforms Config.params 0 (BitVec.ofNat 32 digits.length) (conforming [.verify digits 0]) ∧
    (conforming [.verify digits 0]).dmem.readRange (0 : Word).toNat digits.length = digits ∧
    Admitted 0 (BitVec.ofNat 32 digits.length) (conforming [.verify digits 0]) ∧
    (conforming [.verify digits 0]).link.writes = true :: true :: [] :=
  have h := test_witness_ConformingDeviceAnswers [.verify digits 0]
  ⟨rfl, rfl, by decide, h.2.1, conforming_reads _, h.1, rfl⟩

/-- An image of 2^32 bytes at address 1 and at address 0, in a session with the largest sizes. -/
theorem test_witness_VerifyRefusesOversizedImage :
    ∃ (img : List Byte) (s : State), s.seq.phase = .done ∧ s.pending = .verify img 1 :: [] ∧
      2 ^ 32 < (1 : Word).toNat + img.length ∧ 2 ^ 32 ≤ img.length ∧
      { s with pending := [.verify img 0] }.pending = .verify img 0 :: [] ∧ s.session.portOpen = true ∧ s.session.linkActive = true ∧
      SessionOk s.session := by
  refine ⟨List.replicate (2 ^ 32) 0,
    { base with session := ⟨true, true, 0xFF000, 0xE0000000, .unknown⟩, pending := [.verify (List.replicate (2 ^ 32) 0) 1] },
    rfl, rfl, ?_, List.length_replicate.ge, rfl, rfl, rfl, test_witness_RangePredicates.1⟩
  rw [List.length_replicate]
  decide

/-! ### Witnesses: inputs of other layers, the invariant -/

theorem test_witness_DeviceResetDropsLink :
    base.seq.phase = .done ∧ base.session.portOpen = true ∧
    (queued [.session (.linkActive false), .issue (.packet (crc32Packet Config.params 0 9))]).pending =
      .session (.linkActive false) :: .issue (.packet (crc32Packet Config.params 0 9)) :: [] := ⟨rfl, rfl, rfl⟩

theorem test_witness_SessionInputsSetFields :
    base.seq.phase = .done ∧ (queued [.session (.portOpen false)]).pending = .session (.portOpen false) :: [] ∧
    (queued [.session (.linkActive true)]).pending = .session (.linkActive true) :: [] ∧
    (queued [.session (.flashSizeWord 0x12345620)]).pending = .session (.flashSizeWord 0x12345620) :: [] ∧
    ((0xE0000000 : Nat) ≤ 0xE0000000 ∧ (queued [.session (.ramSize 0xE0000000)]).pending =
      .session (.ramSize 0xE0000000) :: []) ∧
    ((0xE0000000 : Nat) < 0xE0000001 ∧ (queued [.session (.ramSize 0xE0000001)]).pending =
      .session (.ramSize 0xE0000001) :: []) ∧
    (queued [.session (.revision .rev1)]).pending = .session (.revision .rev1) :: [] := by decide

/-- Bytes at the very end of the address space, with no size read, and one past it. -/
theorem test_witness_DeviceWritesReadBack :
    (∀ data, ({ State.reset with pending := [.deviceWrite 0xFFFFFFFE data] } : State).seq.phase = .done ∧
      ({ State.reset with pending := [.deviceWrite 0xFFFFFFFE data] } : State).pending = .deviceWrite 0xFFFFFFFE data :: []) ∧
    State.reset.dmem.wf = true ∧
    (0xFFFFFFFE : Word).toNat + [1, (2 : Byte)].length ≤ 2 ^ 32 ∧
    ¬ (0xFFFFFFFE : Word).toNat + [1, 2, (3 : Byte)].length ≤ 2 ^ 32 ∧
    ∃ t, step (queued [.issue (.port [0x0100])]) = .next t :=
  ⟨fun _ => ⟨rfl, rfl⟩, rfl, by decide, by decide, _, rfl⟩

theorem test_witness_StepKeepsInvariant :
    Inv (queued [.issue (.port [0x0100])]) ∧ ∃ t, step (queued [.issue (.port [0x0100])]) = .next t := by
  refine ⟨⟨rfl, rfl, ⟨rfl, ?_, ?_⟩, fun e he => ?_⟩, ⟨_, rfl⟩⟩
  · decide
  · show 0x20000000 + 0x5000 ≤ 2 ^ 32
    decide
  · simp [queued, base, State.reset] at he

/-- A packet of two bytes and the empty one; a group of no word; a CHECKSUM without its opcode. -/
theorem test_witness_OtherOperationsRefused :
    ([3, 0x27] : List Byte).length < 3 ∧ ([] : List Byte).length < 3 ∧ base.seq.phase = .done ∧
    (queued [.issue (.packet [3, 0x27])]).pending = .issue (.packet [3, 0x27]) :: [] ∧
    (queued [.issue (.port [0x1100, 0x1300])]).pending = .issue (.port [0x1100, 0x1300]) :: [] ∧
    ([] : List PortWord).length ≠ 1 ∧ ([0x1100, 0x1300] : List PortWord).length ≠ 1 ∧
    (∀ bytes, ([0x1100, 0x1300] : List PortWord) ≠ expandCrc32 bytes) ∧
    ∀ opc bytes, ([0x1100, 0x1300] : List PortWord) ≠ expandChecksum opc bytes := by
  refine ⟨by decide, by decide, rfl, rfl, rfl, by decide, by decide, fun bytes h => ?_, fun opc bytes h => ?_⟩
  · exact absurd (List.cons.inj h).1 (by decide)
  · have := congrArg List.length h
    simp [expandChecksum] at this

/-- 95_test_vectors.md gives no packet with a length byte of 0; the model answers none (entry 27). -/
theorem test_splitPacket_zero_length : splitPacket [0, 1, 2] = none ∧ splitPacket [2, 7, 8] = some ([2, 7], [8]) := by decide

end Sys2Proof.Tests
end

section
/-! The big-endian marshalling of a u32 (00_scope.md R9). -/

namespace Sys2Proof

open Machine

/-- A bit field of eight bits is a division by the weight of its lowest bit, modulo 256. -/
theorem extractByte_eq_ofNat_div (v : Word) (k : Nat) : v.extractLsb' k 8 = BitVec.ofNat 8 (v.toNat / 2 ^ k) := by
  rw [← Nat.shiftRight_eq_div_pow]
  rfl

/-- The bytes of `be32` in the arithmetic form of 00_scope.md R9. -/
theorem be32_eq_ofNat_div (v : Word) : be32 v =
    [BitVec.ofNat 8 (v.toNat / 2 ^ 24), BitVec.ofNat 8 (v.toNat / 2 ^ 16), BitVec.ofNat 8 (v.toNat / 2 ^ 8),
      BitVec.ofNat 8 v.toNat] := by
  simp only [be32, extractByte_eq_ofNat_div, Nat.pow_zero, Nat.div_one]

/-- The weighted sum of the four base-256 digits of a number below 2 ^ 32 is the number. -/
@[simp] theorem fromBe32_be32 (x : Word) : fromBe32 (be32 x) = x := by
  have hx : x.toNat < 2 ^ 32 := x.isLt
  apply BitVec.eq_of_toNat_eq
  rw [be32_eq_ofNat_div, toNat_fromBe32]
  simp only [BitVec.toNat_ofNat]
  omega

/-- Settles O1: the digits of `be32`, the weighted sum of `fromBe32`, and the round trip that follows from the two. -/
theorem marshallingIsBigEndian : Obligations.MarshallingIsBigEndian :=
  ⟨be32_eq_ofNat_div, toNat_fromBe32, fromBe32_be32⟩

end Sys2Proof
end

section
/-! The two registers and who touches them (10_state.md R21, R22): the meanings of the port instructions as equations, the
changes of the state that an exchange does not see (42_crc32_command.md R136), and the noninterference of `ACC` and `CHK`. -/

namespace Sys2Proof.Machine

/-! ### The arms of `exec` that have a meaning -/

@[simp] theorem exec_crcInit (s : State) : exec .crcInit s = .next (crcInit Config.params s) := rfl
@[simp] theorem exec_crcByte (d : Byte) (s : State) : exec (.crcByte d) s = .next (crcByte Config.params d s) := rfl
@[simp] theorem exec_crcRead (s : State) : exec .crcRead s = .next (crcRead Config.params s) := rfl
@[simp] theorem exec_chkInit (s : State) : exec .chkInit s = .next (chkInit s) := rfl
@[simp] theorem exec_chkByte (d : Byte) (s : State) : exec (.chkByte d) s = .next (chkByte d s) := rfl
@[simp] theorem exec_chkRead (s : State) : exec .chkRead s = .next (chkRead s) := rfl
@[simp] theorem exec_crc32Dev (start count : Word) (s : State) :
    exec (.crc32Dev start count) s = .next (crc32Dev Config.params start count s) := rfl
@[simp] theorem exec_crc32Pseudo (bytes : List Byte) (s : State) : exec (.crc32Pseudo bytes) s =
    .next (crcRead Config.params (crcBytes Config.params bytes (crcInit Config.params s))) := rfl
@[simp] theorem exec_checksumPseudo (opc : Byte) (bytes : List Byte) (s : State) :
    exec (.checksumPseudo opc bytes) s = .next (chkRead (chkBytes (opc :: bytes) (chkInit s))) := rfl

/-! ### The port operations on an unset and on a set register -/

@[simp] theorem crcInit_acc (p : Params) (s : State) : (crcInit p s).acc = .val p.crcInit := rfl

@[simp] theorem chkInit_chk (s : State) : (chkInit s).chk = .val 0 := rfl

theorem crcByte_of_unset (p : Params) (d : Byte) {s : State} (h : s.acc = .unset) :
    crcByte p d s = s.raise ⟨.crcByteBeforeInit, .mnemonic .crcByte⟩ := by
  simp only [crcByte, h]

theorem crcByte_of_val (p : Params) (d : Byte) {s : State} {a : Word} (h : s.acc = .val a) :
    crcByte p d s = (s.setAcc (crcStep p a d)).ret .unit := by
  simp only [crcByte, h]

theorem crcRead_of_unset (p : Params) {s : State} (h : s.acc = .unset) :
    crcRead p s = s.raise ⟨.crcReadBeforeInit, .mnemonic .crcRead⟩ := by
  simp only [crcRead, h]

theorem crcRead_of_val (p : Params) {s : State} {a : Word} (h : s.acc = .val a) :
    crcRead p s = s.ret (.u32 (a ^^^ p.crcXorOut)) := by
  simp only [crcRead, h]

theorem chkByte_of_unset (d : Byte) {s : State} (h : s.chk = .unset) :
    chkByte d s = s.raise ⟨.chkByteBeforeInit, .mnemonic .chkByte⟩ := by
  simp only [chkByte, h]

theorem chkByte_of_val (d : Byte) {s : State} {c : Byte} (h : s.chk = .val c) :
    chkByte d s = (s.setChk (c + d)).ret .unit := by
  simp only [chkByte, h]

theorem chkRead_of_unset {s : State} (h : s.chk = .unset) :
    chkRead s = s.raise ⟨.chkReadBeforeInit, .mnemonic .chkRead⟩ := by
  simp only [chkRead, h]

theorem chkRead_of_val {s : State} {c : Byte} (h : s.chk = .val c) : chkRead s = s.ret (.u8 c) := by
  simp only [chkRead, h]

/-! ### The running sum -/

theorem chkBytes_append (ds es : List Byte) (s : State) : chkBytes (ds ++ es) s = chkBytes es (chkBytes ds s) := by
  induction ds generalizing s with
  | nil => rfl
  | cons d ds ih => exact ih (chkByte d s)

/-- A run of CHK.BYTE adds its bytes to a set `CHK`. -/
theorem chkBytes_chk (ds : List Byte) {s : State} {c : Byte} (h : s.chk = .val c) :
    (chkBytes ds s).chk = .val (ds.foldl (· + ·) c) := by
  induction ds generalizing s c with
  | nil => exact h
  | cons d ds ih => exact ih (s := chkByte d s) (by rw [chkByte_of_val d h]; rfl)

/-- Adding bytes one at a time modulo 256 is adding their sum as a number. -/
theorem foldl_add_eq_add_ofNat_sum (ds : List Byte) (c : Byte) :
    ds.foldl (· + ·) c = c + BitVec.ofNat 8 (ds.map BitVec.toNat).sum := by
  induction ds generalizing c with
  | nil => simp
  | cons d ds ih =>
    rw [List.foldl_cons, ih, List.map_cons, List.sum_cons, BitVec.ofNat_add, BitVec.ofNat_toNat, BitVec.setWidth_eq,
      BitVec.add_assoc]

/-- `CHK` after CHK.INIT and some bytes is their sum modulo 256 (10_state.md R22). -/
theorem chkBytes_chkInit_chk (ds : List Byte) (s : State) :
    (chkBytes ds (chkInit s)).chk = .val (BitVec.ofNat 8 ((ds.map BitVec.toNat).sum % 256)) := by
  rw [chkBytes_chk ds (chkInit_chk s), foldl_add_eq_add_ofNat_sum]
  congr 1
  apply BitVec.eq_of_toNat_eq
  simp

/-! ### What an exchange does not see

An exchange reads the session sizes and flags, the transport and the sequencer, and nothing else of the state. So it commutes
with every change `f` of the rest, each of its functions by one lemma. -/

/-- `f` changes nothing that an exchange reads, and `g` is what is left of `f` once the outcome of the operation is written:
`f` may also change the result, which the outcome then replaces. -/
structure Unread (f g : State → State) : Prop where
  precheck_eq : ∀ p s start count, precheck p (f s).session start count = precheck p s.session start count
  seq_eq : ∀ s, (f s).seq = s.seq
  link_eq : ∀ s, (f s).link = s.link
  setSeq_comm : ∀ s q, (f s).setSeq q = f (s.setSeq q)
  setLink_comm : ∀ s l, (f s).setLink l = f (s.setLink l)
  ret_comm : ∀ s v, (f s).ret v = g (s.ret v)
  raise_comm : ∀ s e, e.isPortFault = false → (f s).raise e = g (s.raise e)

/-- No precondition of CRC32.DEV raises a code 6 or 7 (60_exceptions.md R150). -/
theorem isPortFault_of_precheck {p : Params} {x : Session} {start count : Nat} {e : ErrInfo}
    (h : precheck p x start count = some e) : e.isPortFault = false := by
  simp only [precheck] at h
  split_ifs at h <;> cases h <;> rfl

section Exchange

variable {f g : State → State} (h : Unread f g)

include h

theorem Unread.setPhase_comm (s : State) (x : Phase) : (f s).setPhase x = f (s.setPhase x) := by
  simp only [State.setPhase, h.seq_eq, h.setSeq_comm]

theorem Unread.countAttempt_comm (s : State) : (f s).countAttempt = f s.countAttempt := by
  simp only [State.countAttempt, h.seq_eq, h.setSeq_comm]

theorem Unread.setOut_comm (s : State) (v : List Byte) : (f s).setOut v = f (s.setOut v) := by
  simp only [State.setOut, h.seq_eq, h.setSeq_comm]

theorem Unread.keepOut_comm (s : State) : (f s).keepOut = f s.keepOut := by
  simp only [State.keepOut, h.seq_eq, h.setSeq_comm]

theorem Unread.txRead_comm (n : Nat) (s : State) : txRead n (f s) = ((txRead n s).1, f (txRead n s).2) := by
  simp only [txRead, h.link_eq, h.setLink_comm]

theorem Unread.txWrite_comm (bytes : List Byte) (s : State) :
    txWrite bytes (f s) = ((txWrite bytes s).1, f (txWrite bytes s).2) := by
  simp only [txWrite, h.link_eq, h.setLink_comm]

theorem Unread.failExchange_comm {e : ErrInfo} (he : e.isPortFault = false) (s : State) :
    failExchange e (f s) = g (failExchange e s) := by
  rw [failExchange, h.setPhase_comm, h.raise_comm _ _ he, failExchange]

theorem Unread.nakFail_comm (p : Params) {why : Reason} (hw : why.kind = .protocolError) (s : State) :
    nakFail p why (f s) = g (nakFail p why s) := by
  simp only [nakFail, h.txWrite_comm, h.seq_eq]
  exact h.failExchange_comm (by simp [ErrInfo.isPortFault, ErrInfo.code, ErrInfo.kind, hw, ErrKind.code]) _

theorem Unread.recvAck_comm (p : Params) (n : Nat) (s : State) :
    recvAck p n (f s) = ((recvAck p n s).1, f (recvAck p n s).2) := by
  induction n generalizing s with
  | zero => rfl
  | succ n ih =>
    simp only [recvAck, h.countAttempt_comm, h.txRead_comm]
    split_ifs
    · rfl
    · rfl
    · exact ih _

theorem Unread.recvLoop_comm (p : Params) (n fuel : Nat) (s : State) :
    recvLoop p n fuel (f s) = ((recvLoop p n fuel s).1, f (recvLoop p n fuel s).2) := by
  induction fuel generalizing s with
  | zero => simp only [recvLoop, h.seq_eq]
  | succ fuel ih =>
    simp only [recvLoop, h.seq_eq, h.txRead_comm, h.countAttempt_comm, h.setOut_comm]
    split_ifs
    · rfl
    · rfl
    · exact ih _
    · exact ih _

theorem Unread.recvExact_comm (p : Params) (n : Nat) (s : State) :
    recvExact p n (f s) = ((recvExact p n s).1, f (recvExact p n s).2) := by
  simp only [recvExact, h.seq_eq, h.setOut_comm, h.recvLoop_comm, h.keepOut_comm]
  split_ifs <;> rfl

theorem Unread.acceptReply_comm (p : Params) (data : List Byte) (s : State) :
    acceptReply p data (f s) = g (acceptReply p data s) := by
  simp only [acceptReply, h.txWrite_comm, h.setPhase_comm, h.ret_comm]
  split_ifs
  · rfl
  · exact h.failExchange_comm rfl _

theorem Unread.judgeReply_comm (p : Params) (rcks : Byte) (data : List Byte) (s : State) :
    judgeReply p rcks data (f s) = g (judgeReply p rcks data s) := by
  simp only [judgeReply]
  split_ifs
  · exact h.nakFail_comm p rfl s
  · exact h.nakFail_comm p rfl s
  · exact h.acceptReply_comm p data s

theorem Unread.receiveData_comm (p : Params) (rlen rcks : Byte) (s : State) :
    receiveData p rlen rcks (f s) = g (receiveData p rlen rcks s) := by
  simp only [receiveData, h.recvExact_comm]
  split_ifs
  · exact h.nakFail_comm p rfl s
  · rcases recvExact p (rlen.toNat - 2) s with ⟨_ | data, t⟩
    · exact h.nakFail_comm p rfl t
    · exact h.judgeReply_comm p rcks data t

theorem Unread.receiveReply_comm (p : Params) (s : State) : receiveReply p (f s) = g (receiveReply p s) := by
  simp only [receiveReply, h.recvExact_comm]
  rcases recvExact p 2 s with ⟨_ | hdr, t⟩
  · exact h.nakFail_comm p rfl t
  · exact h.receiveData_comm p _ _ t

theorem Unread.awaitAnswer_comm (p : Params) (s : State) : awaitAnswer p (f s) = g (awaitAnswer p s) := by
  simp only [awaitAnswer, h.recvAck_comm, enterData, h.seq_eq, h.setSeq_comm]
  rcases recvAck p (p.crcAckRetries + 1) s with ⟨_ | _ | _, t⟩
  case ack => exact h.receiveReply_comm p _
  case nak =>
    simp only [deviceNak, h.seq_eq]
    exact h.failExchange_comm rfl t
  case timeout =>
    simp only [ackTimeout, h.seq_eq]
    exact h.failExchange_comm rfl t

theorem Unread.sendCommand_comm (p : Params) (start count : Word) (s : State) :
    sendCommand p start count (f s) = ((sendCommand p start count s).1, f (sendCommand p start count s).2) := by
  simp only [sendCommand, enterExchange, h.setSeq_comm, h.txWrite_comm]

theorem Unread.exchange_comm (p : Params) (start count : Word) (s : State) :
    exchange p start count (f s) = g (exchange p start count s) := by
  simp only [exchange, h.sendCommand_comm]
  rcases sendCommand p start count s with ⟨_ | _, t⟩
  · exact h.failExchange_comm rfl t
  · exact h.awaitAnswer_comm p t

/-- CRC32.DEV commutes with every change of what it does not read (42_crc32_command.md R136). -/
theorem Unread.crc32Dev_comm (p : Params) (start count : Word) (s : State) :
    crc32Dev p start count (f s) = g (crc32Dev p start count s) := by
  simp only [crc32Dev, h.precheck_eq]
  rcases hp : precheck p s.session start.toNat count.toNat with _ | e
  · exact h.exchange_comm p start count s
  · exact h.failExchange_comm (isPortFault_of_precheck hp) s

end Exchange

/-! ### Replacing a register -/

/-- The state with any content of `ACC`, `unset` included. -/
def State.replaceAcc (a : Reg 32) (s : State) : State := { s with acc := a }

/-- The state with any content of `CHK`, `unset` included. -/
def State.replaceChk (c : Reg 8) (s : State) : State := { s with chk := c }

theorem unread_replaceAcc (a : Reg 32) : Unread (State.replaceAcc a) (State.replaceAcc a) :=
  ⟨fun _ _ _ _ => rfl, fun _ => rfl, fun _ => rfl, fun _ _ => rfl, fun _ _ => rfl, fun _ _ => rfl, fun _ _ _ => rfl⟩

theorem unread_replaceChk (c : Reg 8) : Unread (State.replaceChk c) (State.replaceChk c) :=
  ⟨fun _ _ _ _ => rfl, fun _ => rfl, fun _ => rfl, fun _ _ => rfl, fun _ _ => rfl, fun _ _ => rfl, fun _ _ _ => rfl⟩

theorem chkByte_replaceAcc (a : Reg 32) (d : Byte) (s : State) :
    chkByte d (s.replaceAcc a) = (chkByte d s).replaceAcc a := by
  have hr : (s.replaceAcc a).chk = s.chk := rfl
  cases hs : s.chk with
  | unset => rw [chkByte_of_unset d hs, chkByte_of_unset d (hr.trans hs)]; rfl
  | val v => rw [chkByte_of_val d hs, chkByte_of_val d (hr.trans hs)]; rfl

theorem chkRead_replaceAcc (a : Reg 32) (s : State) : chkRead (s.replaceAcc a) = (chkRead s).replaceAcc a := by
  have hr : (s.replaceAcc a).chk = s.chk := rfl
  cases hs : s.chk with
  | unset => rw [chkRead_of_unset hs, chkRead_of_unset (hr.trans hs)]; rfl
  | val v => rw [chkRead_of_val hs, chkRead_of_val (hr.trans hs)]; rfl

theorem chkBytes_replaceAcc (a : Reg 32) (ds : List Byte) (s : State) :
    chkBytes ds (s.replaceAcc a) = (chkBytes ds s).replaceAcc a := by
  induction ds generalizing s with
  | nil => rfl
  | cons d ds ih => rw [chkBytes, chkByte_replaceAcc, ih, chkBytes]

theorem crcByte_replaceChk (c : Reg 8) (p : Params) (d : Byte) (s : State) :
    crcByte p d (s.replaceChk c) = (crcByte p d s).replaceChk c := by
  have hr : (s.replaceChk c).acc = s.acc := rfl
  cases hs : s.acc with
  | unset => rw [crcByte_of_unset p d hs, crcByte_of_unset p d (hr.trans hs)]; rfl
  | val v => rw [crcByte_of_val p d hs, crcByte_of_val p d (hr.trans hs)]; rfl

theorem crcRead_replaceChk (c : Reg 8) (p : Params) (s : State) :
    crcRead p (s.replaceChk c) = (crcRead p s).replaceChk c := by
  have hr : (s.replaceChk c).acc = s.acc := rfl
  cases hs : s.acc with
  | unset => rw [crcRead_of_unset p hs, crcRead_of_unset p (hr.trans hs)]; rfl
  | val v => rw [crcRead_of_val p hs, crcRead_of_val p (hr.trans hs)]; rfl

theorem crcBytes_replaceChk (c : Reg 8) (p : Params) (ds : List Byte) (s : State) :
    crcBytes p ds (s.replaceChk c) = (crcBytes p ds s).replaceChk c := by
  induction ds generalizing s with
  | nil => rfl
  | cons d ds ih => rw [crcBytes, crcByte_replaceChk, ih, crcBytes]

/-! ### Noninterference -/

/-- An instruction that is none of the CRC operations does the same whatever `ACC` holds (10_state.md R21). -/
theorem exec_replaceAcc {i : Instr} {s t : State} (hi : UsesAcc i = false) (h : exec i s = .next t) (a : Reg 32) :
    exec i (s.replaceAcc a) = .next (t.replaceAcc a) := by
  cases i with
  | crcInit | crcByte _ | crcRead | crc32Pseudo _ => cases hi
  | chkInit => cases h; rfl
  | chkByte d => cases h; exact congrArg _ (chkByte_replaceAcc a d s)
  | chkRead => cases h; exact congrArg _ (chkRead_replaceAcc a s)
  | checksumPseudo opc bytes =>
    cases h
    rw [exec_checksumPseudo, ← chkRead_replaceAcc, ← chkBytes_replaceAcc]
    rfl
  | crc32Dev start count => cases h; exact congrArg _ ((unread_replaceAcc a).crc32Dev_comm _ start count s)
  | _ => cases h

/-- An instruction that is none of the CHK operations does the same whatever `CHK` holds (10_state.md R22). -/
theorem exec_replaceChk {i : Instr} {s t : State} (hi : UsesChk i = false) (h : exec i s = .next t) (c : Reg 8) :
    exec i (s.replaceChk c) = .next (t.replaceChk c) := by
  cases i with
  | chkInit | chkByte _ | chkRead | checksumPseudo _ _ => cases hi
  | crcInit => cases h; rfl
  | crcByte d => cases h; exact congrArg _ (crcByte_replaceChk c _ d s)
  | crcRead => cases h; exact congrArg _ (crcRead_replaceChk c _ s)
  | crc32Pseudo bytes =>
    cases h
    rw [exec_crc32Pseudo, ← crcRead_replaceChk, ← crcBytes_replaceChk]
    rfl
  | crc32Dev start count => cases h; exact congrArg _ ((unread_replaceChk c).crc32Dev_comm _ start count s)
  | _ => cases h

/-- Such an instruction leaves `ACC`: it commutes with putting the old content back. -/
theorem exec_keeps_acc {i : Instr} {s t : State} (hi : UsesAcc i = false) (h : exec i s = .next t) : t.acc = s.acc := by
  have hback : t = t.replaceAcc s.acc := Host.Outcome.next.inj (h.symm.trans (exec_replaceAcc hi h s.acc))
  calc
    t.acc = (t.replaceAcc s.acc).acc := congrArg State.acc hback
    _ = s.acc := rfl

/-- Such an instruction leaves `CHK`: it commutes with putting the old content back. -/
theorem exec_keeps_chk {i : Instr} {s t : State} (hi : UsesChk i = false) (h : exec i s = .next t) : t.chk = s.chk := by
  have hback : t = t.replaceChk s.chk := Host.Outcome.next.inj (h.symm.trans (exec_replaceChk hi h s.chk))
  calc
    t.chk = (t.replaceChk s.chk).chk := congrArg State.chk hback
    _ = s.chk := rfl

/-- Settles O2: the equations of the CRC operations on a set `ACC`, and the noninterference of all other instructions. -/
theorem accBelongsToCrcOperations : Obligations.AccBelongsToCrcOperations := by
  refine ⟨rfl, fun s t h => ?init, fun d s t a ha h => ?byte, fun s t a ha h => ?read,
    fun i s t hi h => ⟨exec_keeps_acc hi h, exec_replaceAcc hi h⟩⟩
  case init =>
    cases h
    exact crcInit_acc Config.params s
  case byte =>
    rw [exec_crcByte, crcByte_of_val _ d ha] at h
    cases h
    rfl
  case read =>
    rw [exec_crcRead, crcRead_of_val _ ha] at h
    cases h
    exact ⟨rfl, ha⟩

/-- Settles O3: the running sum by induction on the bytes, the equation of CHK.READ on a set `CHK`, and the noninterference of
all other instructions. -/
theorem chkBelongsToChkOperations : Obligations.ChkBelongsToChkOperations := by
  refine ⟨rfl, fun s t h => ?init, fun ds d s t => ⟨chkBytes_chkInit_chk ds s, fun h => ?byte⟩, fun s t c hc h => ?read,
    fun i s t hi h => ⟨exec_keeps_chk hi h, exec_replaceChk hi h⟩⟩
  case init =>
    cases h
    exact chkInit_chk s
  case byte =>
    rw [chkBytes_append]
    cases h
    rfl
  case read =>
    rw [exec_chkRead, chkRead_of_val hc] at h
    cases h
    exact ⟨rfl, hc⟩

end Sys2Proof.Machine
end

section
/-! What the step makes of an operation handed over: the port words that decode (30_encoding.md R61, R62) and the wire packets
that are refused (R70). -/

namespace Sys2Proof.Machine

/-- What becomes of a decoded operation: an instruction is executed, the rest is an error or a refusal. -/
def runDecoded : Decoded → State → Host.Outcome State Fault Refusal
  | .instr i, s => exec i s
  | .rejected e, s => rejectOperation e s

/-- Between exchanges an operation is taken, decoded, and run. -/
theorem step_of_issue {s : State} {x : Issue} {rest : List HostInput} (h : s.seq.phase = .done)
    (hp : s.pending = .issue x :: rest) : step s = runDecoded (decode x) (s.setPending rest) := by
  cases hd : decode x with
  | instr i => exact step_of_instr h hp hd
  | rejected e => simp only [step, h, fetch, hp, hd, runDecoded]

/-! ### The port words -/

@[simp] theorem decode_port_singleton (w : PortWord) : decode (.port [w]) = decodePortWord w := rfl

@[simp] theorem decodePortWord_crcInit : decodePortWord (portWord 0x01 0) = .instr .crcInit := by decide
@[simp] theorem decodePortWord_crcRead : decodePortWord (portWord 0x03 0) = .instr .crcRead := by decide
@[simp] theorem decodePortWord_chkInit : decodePortWord (portWord 0x11 0) = .instr .chkInit := by decide
@[simp] theorem decodePortWord_chkRead : decodePortWord (portWord 0x13 0) = .instr .chkRead := by decide

@[simp] theorem decodePortWord_crcByte (d : Byte) : decodePortWord (portWord 0x02 d) = .instr (.crcByte d) := by
  simp [decodePortWord]

@[simp] theorem decodePortWord_chkByte (d : Byte) : decodePortWord (portWord 0x12 d) = .instr (.chkByte d) := by
  simp [decodePortWord]

/-- A word of format N other than the one assigned for its `op` is reserved: its `d` is not 0x00. -/
theorem formatN_of_ne {w : PortWord} {op : Byte} (i : Instr) (hop : (opField w).toNat = op.toNat)
    (hw : w ≠ portWord op 0) : formatN w i = .rejected (.reserved w) :=
  if_neg fun hd => hw ((eq_portWord_iff w op 0).mpr ⟨BitVec.eq_of_toNat_eq hop, hd⟩)

/-- Every assigned word is an operation. -/
theorem AssignedPortWord.decodes {w : PortWord} (h : AssignedPortWord w) : ∃ i, decodePortWord w = .instr i := by
  obtain rfl | rfl | rfl | rfl | hop | hop := h
  · exact ⟨.crcInit, decodePortWord_crcInit⟩
  · exact ⟨.crcRead, decodePortWord_crcRead⟩
  · exact ⟨.chkInit, decodePortWord_chkInit⟩
  · exact ⟨.chkRead, decodePortWord_chkRead⟩
  · rw [(eq_portWord_iff w 0x02 _).mpr ⟨hop, rfl⟩]
    exact ⟨_, decodePortWord_crcByte _⟩
  · rw [(eq_portWord_iff w 0x12 _).mpr ⟨hop, rfl⟩]
    exact ⟨_, decodePortWord_chkByte _⟩

/-- Every other word is rejected as reserved, by the rows of the table of 30_encoding.md R61. -/
theorem decodePortWord_of_not_assigned {w : PortWord} (h : ¬ AssignedPortWord w) :
    decodePortWord w = .rejected (.reserved w) := by
  simp only [AssignedPortWord, not_or] at h
  obtain ⟨hcrcInit, hcrcRead, hchkInit, hchkRead, hcrcByte, hchkByte⟩ := h
  simp only [decodePortWord]
  split
  next hop => exact formatN_of_ne (op := 0x01) _ hop hcrcInit
  next hop => exact absurd (BitVec.eq_of_toNat_eq hop) hcrcByte
  next hop => exact formatN_of_ne (op := 0x03) _ hop hcrcRead
  next hop => exact formatN_of_ne (op := 0x11) _ hop hchkInit
  next hop => exact absurd (BitVec.eq_of_toNat_eq hop) hchkByte
  next hop => exact formatN_of_ne (op := 0x13) _ hop hchkRead
  next => rfl

/-- The words that decode to an instruction are the assigned ones. -/
theorem decodePortWord_instr_iff (w : PortWord) : (∃ i, decodePortWord w = .instr i) ↔ AssignedPortWord w := by
  refine ⟨fun ⟨i, hi⟩ => ?_, AssignedPortWord.decodes⟩
  by_contra h
  rw [decodePortWord_of_not_assigned h] at hi
  cases hi

/-- Settles O11: the rows of the decoder's table against the assigned words, and the error that a reserved word raises. -/
theorem reservedPortWordsAreUnsupported : Obligations.ReservedPortWordsAreUnsupported := by
  refine ⟨decodePortWord_instr_iff, fun w => decodePortWord_of_not_assigned, rfl, fun s t w rest hw hdone hp h => ?_⟩
  rw [step_of_issue hdone hp, decode_port_singleton, decodePortWord_of_not_assigned hw] at h
  calc
    t = (s.setPending rest).raise ⟨.reservedWord, .portWord w⟩ := (Host.Outcome.next.inj h).symm
    _ = _ := State.raise_portFault _ _ rfl

/-! ### The packets of other commands -/

section Wire

variable (s : State) (len cks : Byte) (p : List Byte)

@[simp] theorem exec_wirePing : exec (.wirePing len cks p) s = .refused (.wireOpcode 0x20) := rfl
@[simp] theorem exec_wireDownload : exec (.wireDownload len cks p) s = .refused (.wireOpcode 0x21) := rfl
@[simp] theorem exec_wireGetStatus : exec (.wireGetStatus len cks p) s = .refused (.wireOpcode 0x23) := rfl
@[simp] theorem exec_wireSendData : exec (.wireSendData len cks p) s = .refused (.wireOpcode 0x24) := rfl
@[simp] theorem exec_wireReset : exec (.wireReset len cks p) s = .refused (.wireOpcode 0x25) := rfl
@[simp] theorem exec_wireSectorErase : exec (.wireSectorErase len cks p) s = .refused (.wireOpcode 0x26) := rfl
@[simp] theorem exec_wireGetChipId : exec (.wireGetChipId len cks p) s = .refused (.wireOpcode 0x28) := rfl
@[simp] theorem exec_wireMemoryRead : exec (.wireMemoryRead len cks p) s = .refused (.wireOpcode 0x2A) := rfl
@[simp] theorem exec_wireMemoryWrite : exec (.wireMemoryWrite len cks p) s = .refused (.wireOpcode 0x2B) := rfl
@[simp] theorem exec_wireBankErase : exec (.wireBankErase len cks p) s = .refused (.wireOpcode 0x2C) := rfl
@[simp] theorem exec_wireSetCcfg : exec (.wireSetCcfg len cks p) s = .refused (.wireOpcode 0x2D) := rfl

/-- A packet whose opcode is not that of CRC32 is refused with the opcode it has, whether the source lists it or not. -/
theorem runDecoded_otherPacket {opc : Byte} (hopc : opc ≠ 0x27) :
    runDecoded (decode (.packet (len :: cks :: opc :: p))) s = .refused (.wireOpcode opc) := by
  simp only [decode, decodePacket]
  split
  case h_7 h => exact absurd (BitVec.eq_of_toNat_eq h) hopc
  case h_13 => rfl
  all_goals
    next h => simp [runDecoded, ← BitVec.toNat_inj, h]

end Wire

/-- Settles O16: the eleven meanings, and the decoder's rows for every opcode but 0x27. -/
theorem otherWirePacketsRefused : Obligations.OtherWirePacketsRefused := by
  refine ⟨fun s len cks p => by simp, fun s len cks opc p rest hopc hdone hp => ?_⟩
  rw [step_of_issue hdone hp]
  exact runDecoded_otherPacket _ len cks p hopc

end Sys2Proof.Machine
end

section
/-! The layout of the packets (30_encoding.md R63 to R65). -/

namespace Sys2Proof.Machine

/-- The check byte is the sum of opcode and payload modulo 256 (41_checksum.md R105). -/
theorem toNat_checksum (opc : Byte) (payload : List Byte) :
    (checksum opc payload).toNat = (opc.toNat + (payload.map BitVec.toNat).sum) % 256 := by
  rw [checksum, foldl_add_eq_add_ofNat_sum, BitVec.toNat_add, BitVec.toNat_ofNat, Nat.add_mod_mod]

/-- The check byte of a reply is the sum of its data modulo 256 (41_checksum.md R106). -/
theorem toNat_dsum (data : List Byte) : (dsum data).toNat = (data.map BitVec.toNat).sum % 256 :=
  (toNat_checksum 0 data).trans (congrArg (· % 256) (Nat.zero_add _))

theorem length_commandPacket (opc : Byte) (payload : List Byte) :
    (commandPacket opc payload).length = 3 + payload.length := by
  simp only [commandPacket, List.length_cons]
  omega

/-- Settles O12: the value of the length byte, which does not wrap, and of the check byte. -/
theorem commandPacketLayout : Obligations.CommandPacketLayout := by
  intro opc payload h
  have hlen : (BitVec.ofNat 8 (3 + payload.length)).toNat = 3 + payload.length := Nat.mod_eq_of_lt (by omega)
  exact ⟨_, _, rfl, hlen, hlen.trans (length_commandPacket opc payload).symm, toNat_checksum opc payload⟩

/-- Settles O14: the value of the length byte, which does not wrap, and of the check byte. -/
theorem replyPacketLayout : Obligations.ReplyPacketLayout := by
  intro data h
  have hlen : (BitVec.ofNat 8 (2 + data.length)).toNat = 2 + data.length := Nat.mod_eq_of_lt (by omega)
  refine ⟨_, _, rfl, hlen, toNat_dsum data, fun h4 => ?_⟩
  rw [h4]
  rfl

/-- The payload of the CRC32 command: its read-repeat-count is zero (30_encoding.md R64). -/
theorem crc32Payload_params (start count : Word) :
    crc32Payload Config.params start count = be32 start ++ be32 count ++ [0, 0, 0, 0] := by
  have hrepeat : be32 Config.params.crcRepeat = [0, 0, 0, 0] := by decide
  rw [crc32Payload, hrepeat]

/-- Settles O13: the payload's twelve bytes under the header of a command packet. -/
theorem crc32PacketLayout : Obligations.Crc32PacketLayout := by
  intro start count
  constructor
  · rw [encode, crc32Packet, crc32Payload_params]
    rfl
  · rw [crc32Packet, length_commandPacket, crc32Payload_params]
    rfl

end Sys2Proof.Machine
end

section
/-! Running a group of port words one step at a time (30_encoding.md R72). -/

namespace Sys2Proof.Machine

/-! ### The port operations and the queue -/

theorem State.setPending_self {s : State} {q : List HostInput} (h : s.pending = q) : s.setPending q = s := by
  subst h
  rfl

theorem crcByte_setPending (p : Params) (d : Byte) (s : State) (q : List HostInput) :
    crcByte p d (s.setPending q) = (crcByte p d s).setPending q := by
  have hr : (s.setPending q).acc = s.acc := s.setPending_acc q
  cases hs : s.acc with
  | unset => rw [crcByte_of_unset p d hs, crcByte_of_unset p d (hr.trans hs)]; rfl
  | val v => rw [crcByte_of_val p d hs, crcByte_of_val p d (hr.trans hs)]; rfl

theorem crcRead_setPending (p : Params) (s : State) (q : List HostInput) :
    crcRead p (s.setPending q) = (crcRead p s).setPending q := by
  have hr : (s.setPending q).acc = s.acc := s.setPending_acc q
  cases hs : s.acc with
  | unset => rw [crcRead_of_unset p hs, crcRead_of_unset p (hr.trans hs)]; rfl
  | val v => rw [crcRead_of_val p hs, crcRead_of_val p (hr.trans hs)]; rfl

theorem chkByte_setPending (d : Byte) (s : State) (q : List HostInput) :
    chkByte d (s.setPending q) = (chkByte d s).setPending q := by
  have hr : (s.setPending q).chk = s.chk := s.setPending_chk q
  cases hs : s.chk with
  | unset => rw [chkByte_of_unset d hs, chkByte_of_unset d (hr.trans hs)]; rfl
  | val v => rw [chkByte_of_val d hs, chkByte_of_val d (hr.trans hs)]; rfl

theorem chkRead_setPending (s : State) (q : List HostInput) :
    chkRead (s.setPending q) = (chkRead s).setPending q := by
  have hr : (s.setPending q).chk = s.chk := s.setPending_chk q
  cases hs : s.chk with
  | unset => rw [chkRead_of_unset hs, chkRead_of_unset (hr.trans hs)]; rfl
  | val v => rw [chkRead_of_val hs, chkRead_of_val (hr.trans hs)]; rfl

@[simp] theorem crcByte_seq (p : Params) (d : Byte) (s : State) : (crcByte p d s).seq = s.seq := by
  cases hs : s.acc with
  | unset => rw [crcByte_of_unset p d hs, State.raise_seq]
  | val v => rw [crcByte_of_val p d hs, State.ret_seq, State.setAcc_seq]

@[simp] theorem crcRead_seq (p : Params) (s : State) : (crcRead p s).seq = s.seq := by
  cases hs : s.acc with
  | unset => rw [crcRead_of_unset p hs, State.raise_seq]
  | val v => rw [crcRead_of_val p hs, State.ret_seq]

@[simp] theorem chkByte_seq (d : Byte) (s : State) : (chkByte d s).seq = s.seq := by
  cases hs : s.chk with
  | unset => rw [chkByte_of_unset d hs, State.raise_seq]
  | val v => rw [chkByte_of_val d hs, State.ret_seq, State.setChk_seq]

@[simp] theorem chkRead_seq (s : State) : (chkRead s).seq = s.seq := by
  cases hs : s.chk with
  | unset => rw [chkRead_of_unset hs, State.raise_seq]
  | val v => rw [chkRead_of_val hs, State.ret_seq]

/-! ### One port word, and a group of them -/

/-- The port word `w` is an operation with the effect `f`, which neither reads nor writes the queue and leaves the
sequencer. -/
structure PortOp (w : PortWord) (f : State → State) : Prop where
  runDecoded_eq : ∀ s, runDecoded (decodePortWord w) s = .next (f s)
  setPending_comm : ∀ s q, f (s.setPending q) = (f s).setPending q
  seq_eq : ∀ s, (f s).seq = s.seq

theorem portOp_crcInit : PortOp (portWord 0x01 0) (crcInit Config.params) where
  runDecoded_eq s := by rw [decodePortWord_crcInit]; rfl
  setPending_comm _ _ := rfl
  seq_eq _ := rfl

theorem portOp_crcByte (d : Byte) : PortOp (portWord 0x02 d) (crcByte Config.params d) where
  runDecoded_eq s := by rw [decodePortWord_crcByte]; rfl
  setPending_comm := crcByte_setPending Config.params d
  seq_eq := crcByte_seq Config.params d

theorem portOp_crcRead : PortOp (portWord 0x03 0) (crcRead Config.params) where
  runDecoded_eq s := by rw [decodePortWord_crcRead]; rfl
  setPending_comm := crcRead_setPending Config.params
  seq_eq := crcRead_seq Config.params

theorem portOp_chkInit : PortOp (portWord 0x11 0) chkInit where
  runDecoded_eq s := by rw [decodePortWord_chkInit]; rfl
  setPending_comm _ _ := rfl
  seq_eq _ := rfl

theorem portOp_chkByte (d : Byte) : PortOp (portWord 0x12 d) (chkByte d) where
  runDecoded_eq s := by rw [decodePortWord_chkByte]; rfl
  setPending_comm := chkByte_setPending d
  seq_eq := chkByte_seq d

theorem portOp_chkRead : PortOp (portWord 0x13 0) chkRead where
  runDecoded_eq s := by rw [decodePortWord_chkRead]; rfl
  setPending_comm := chkRead_setPending
  seq_eq := chkRead_seq

/-- The words of `ws` are operations whose effects, in order, make up `f`. -/
inductive PortOps : List PortWord → (State → State) → Prop where
  | nil : PortOps [] id
  | cons {w : PortWord} {ws : List PortWord} {f g : State → State} :
    PortOp w f → PortOps ws g → PortOps (w :: ws) (g ∘ f)

/-- Stepping through the words of a group, each issued on its own, has the group's effect on the state without them. -/
theorem PortOps.run_eq {ws : List PortWord} {f : State → State} (h : PortOps ws f) {s : State} {rest : List HostInput}
    (hdone : s.seq.phase = .done) (hp : s.pending = ws.map (fun w => .issue (.port [w])) ++ rest) :
    Sys2Proof.core.run ws.length s = .next (f (s.setPending rest)) := by
  induction h generalizing s with
  | nil => rw [State.setPending_self (by simpa using hp)]; rfl
  | @cons w ws f g hw _ ih =>
    have hstep : step s = .next ((f s).setPending (ws.map (fun w => .issue (.port [w])) ++ rest)) := by
      rw [step_of_issue hdone hp, decode_port_singleton, hw.runDecoded_eq, hw.setPending_comm]
      rfl
    rw [List.length_cons, run_succ_of_next _ hstep, ih (by rw [State.setPending_seq, hw.seq_eq, hdone]) rfl,
      Function.comp_apply, hw.setPending_comm]
    rfl

/-- Operand words in front of a group: CRC.BYTE for each byte. -/
theorem PortOps.crcBytes_append {ws : List PortWord} {g : State → State} (h : PortOps ws g) (bytes : List Byte) :
    PortOps (bytes.map (portWord 0x02) ++ ws) (g ∘ crcBytes Config.params bytes) := by
  induction bytes with
  | nil => exact h
  | cons b bytes ih => exact (PortOps.cons (portOp_crcByte b) ih :)

/-- Operand words in front of a group: CHK.BYTE for each byte. -/
theorem PortOps.chkBytes_append {ws : List PortWord} {g : State → State} (h : PortOps ws g) (bytes : List Byte) :
    PortOps (bytes.map (portWord 0x12) ++ ws) (g ∘ chkBytes bytes) := by
  induction bytes with
  | nil => exact h
  | cons b bytes ih => exact (PortOps.cons (portOp_chkByte b) ih :)

theorem portOps_expandCrc32 (bytes : List Byte) : PortOps (expandCrc32 bytes)
    (crcRead Config.params ∘ crcBytes Config.params bytes ∘ crcInit Config.params) :=
  (PortOps.cons portOp_crcInit ((PortOps.cons portOp_crcRead .nil).crcBytes_append bytes) :)

theorem portOps_expandChecksum (opc : Byte) (bytes : List Byte) : PortOps (expandChecksum opc bytes)
    (chkRead ∘ chkBytes (opc :: bytes) ∘ chkInit) :=
  (PortOps.cons portOp_chkInit ((PortOps.cons portOp_chkRead .nil).chkBytes_append (opc :: bytes)) :)

/-! ### The pseudo-instructions -/

/-- A run of CRC.BYTE folds its bytes into a set `ACC`. -/
theorem crcBytes_acc (p : Params) (ds : List Byte) {s : State} {a : Word} (h : s.acc = .val a) :
    (crcBytes p ds s).acc = .val (crcFold p a ds) := by
  induction ds generalizing s a with
  | nil => exact h
  | cons d ds ih => exact ih (s := crcByte p d s) (by rw [crcByte_of_val p d h]; rfl)

theorem expandCrc32_eq_append (bytes : List Byte) :
    expandCrc32 bytes = 0x0100 :: (bytes.map (fun b => 0x02#8 ++ b) ++ [0x0300]) := by
  simp only [expandCrc32, ← portWord_eq_append]
  rfl

theorem expandChecksum_eq_append (opc : Byte) (bytes : List Byte) :
    expandChecksum opc bytes = 0x1100 :: (0x12#8 ++ opc) :: (bytes.map (fun b => 0x12#8 ++ b) ++ [0x1300]) := by
  simp only [expandChecksum, ← portWord_eq_append]
  rfl

theorem length_expandCrc32 (bytes : List Byte) : (expandCrc32 bytes).length = bytes.length + 2 := by
  simp [expandCrc32]

theorem length_expandChecksum (opc : Byte) (bytes : List Byte) :
    (expandChecksum opc bytes).length = bytes.length + 3 := by
  simp [expandChecksum]

/-- Settles O19: each expansion is a group of port operations whose effects make up the meaning of the pseudo-instruction; its
INIT sets the register, so its READ answers a value. -/
theorem pseudoInstructionsExpand : Obligations.PseudoInstructionsExpand := by
  refine ⟨expandCrc32_eq_append, expandChecksum_eq_append, fun bytes s rest hdone hp => ?crc,
    fun opc bytes s rest hdone hp => ?checksum⟩
  case crc =>
    have hacc := crcBytes_acc Config.params bytes (crcInit_acc Config.params (s.setPending rest))
    refine ⟨_, _, exec_crc32Pseudo bytes _, congrArg State.result (crcRead_of_val _ hacc), ?_⟩
    rw [← length_expandCrc32]
    exact (portOps_expandCrc32 bytes).run_eq hdone hp
  case checksum =>
    have hchk := chkBytes_chk (opc :: bytes) (chkInit_chk (s.setPending rest))
    refine ⟨_, _, exec_checksumPseudo opc bytes _, congrArg State.result (chkRead_of_val hchk), ?_⟩
    rw [← length_expandChecksum opc]
    exact (portOps_expandChecksum opc bytes).run_eq hdone hp

end Sys2Proof.Machine
end

section
/-! The CRC-32 datapath (40_crc32.md R80, R84, R87, R88): the shift loop as an iterate, what it does to zero low bits, its
fixed points, the additivity of the fold, and the loop taken four bits at a time. -/

namespace Sys2Proof.Machine

/-! ### The loop of R80 -/

theorem crcShifts_eq_iterate (p : Params) (n : Nat) (x : Word) : crcShifts p n x = (crcShift p)^[n] x := by
  induction n generalizing x with
  | zero => rfl
  | succ n ih => exact ih (crcShift p x)

theorem crcShifts_add (p : Params) (m n : Nat) (x : Word) : crcShifts p (m + n) x = crcShifts p m (crcShifts p n x) := by
  simp only [crcShifts_eq_iterate, Function.iterate_add_apply]

/-- The test of the lowest bit as 40_crc32.md R80 writes it. -/
theorem and_one_eq_one_iff (x : Word) : x &&& 1#32 = 1#32 ↔ x.getLsbD 0 = true := by
  rw [BitVec.and_one_eq_setWidth_ofBool_getLsbD]
  cases x.getLsbD 0 <;> decide

/-- One pass of the loop, as 40_crc32.md R80 writes it. -/
theorem crcShift_params : crcShift Config.params =
    fun a : Word => if a &&& 1#32 = 1#32 then (a >>> 1) ^^^ 0xEDB88320#32 else a >>> 1 := by
  funext a
  simp only [crcShift, and_one_eq_one_iff]
  rfl

/-- Settles O20: the recursion of the loop is an iterate of its body; the bit reversal is an evaluation. -/
theorem crcStepIsTheReflectedLoop : Obligations.CrcStepIsTheReflectedLoop := by
  refine ⟨fun acc d => ?loop, by decide +kernel⟩
  case loop =>
    calc
      crcStep Config.params acc d = (crcShift Config.params)^[8] (acc ^^^ d.setWidth 32) := crcShifts_eq_iterate _ 8 _
      _ = _ := by rw [crcShift_params]

/-! ### The fixed points of the loop

Over GF(2) the loop run `2 * n` times, plus the identity, is the square of the loop run `n` times, plus the identity. So a
nonzero word that eight passes leave as it is would give one that a single pass leaves. -/

theorem crcShifts_zero (p : Params) (n : Nat) : crcShifts p n 0 = 0 := by
  simpa using crcShifts_xor p n 0 0

theorem eq_zero_of_ushiftRight_one_eq {x : Word} (h : x >>> 1 = x) : x = 0 := by
  have hhalf : x.toNat / 2 = x.toNat := by
    rw [← Nat.shiftRight_eq_div_pow x.toNat 1, ← BitVec.toNat_ushiftRight, h]
  have hzero : x.toNat = 0 := by omega
  exact BitVec.eq_of_toNat_eq hzero

/-- The only solution of `(x >> 1) xor CRC_POLY_REFL = x`: bit `i` of it is the parity of the bits of the polynomial from `i`
upwards. -/
theorem eq_of_ushiftRight_one_xor_poly_eq {x : Word} (h : (x >>> 1) ^^^ 0xEDB88320#32 = x) : x = 0xB6D0FDC0#32 := by
  have hpoly : (0xB6D0FDC0#32 >>> 1) ^^^ 0xB6D0FDC0#32 = 0xEDB88320#32 := by decide
  have hdiff : (x ^^^ 0xB6D0FDC0#32) >>> 1 = x ^^^ 0xB6D0FDC0#32 := by
    calc
      (x ^^^ 0xB6D0FDC0#32) >>> 1 = (x >>> 1) ^^^ ((0xB6D0FDC0#32 >>> 1) ^^^ 0xB6D0FDC0#32) ^^^ 0xB6D0FDC0#32 := by
        rw [BitVec.ushiftRight_xor_distrib, BitVec.xor_assoc, BitVec.xor_assoc, BitVec.xor_self, BitVec.xor_zero]
      _ = x ^^^ 0xB6D0FDC0#32 := by rw [hpoly, h]
  exact BitVec.xor_eq_zero_iff.mp (eq_zero_of_ushiftRight_one_eq hdiff)

/-- A pass over a clear lowest bit halves the word; a pass over a set one could only keep `0xB6D0FDC0`, whose lowest bit is
clear. -/
theorem eq_zero_of_crcShift_eq {x : Word} (h : crcShift Config.params x = x) : x = 0 := by
  cases hbit : x.getLsbD 0 with
  | false =>
    simp only [crcShift, hbit] at h
    exact eq_zero_of_ushiftRight_one_eq h
  | true =>
    simp only [crcShift, hbit] at h
    rw [eq_of_ushiftRight_one_xor_poly_eq h] at hbit
    exact absurd hbit (by decide)

/-- If `x` comes back after `2 * n` passes, `x` plus its image after `n` passes comes back after `n`. -/
theorem eq_zero_of_crcShifts_double_eq {p : Params} {n : Nat} (hn : ∀ x, crcShifts p n x = x → x = 0) {x : Word}
    (h : crcShifts p (n + n) x = x) : x = 0 := by
  have hdiff : crcShifts p n (crcShifts p n x ^^^ x) = crcShifts p n x ^^^ x := by
    rw [crcShifts_xor, ← crcShifts_add, h, BitVec.xor_comm]
  exact hn x (BitVec.xor_eq_zero_iff.mp (hn _ hdiff))

/-- A zero byte leaves the accumulator as it is only where that is zero (40_crc32.md R82). -/
theorem crcStep_zero_eq_iff (a : Word) : crcStep Config.params a 0 = a ↔ a = 0 := by
  have hstep : ∀ x, crcStep Config.params x 0 = crcShifts Config.params 8 x := fun x =>
    congrArg (crcShifts Config.params 8) (BitVec.xor_zero (x := x))
  have h1 : ∀ x, crcShifts Config.params 1 x = x → x = 0 := fun x => eq_zero_of_crcShift_eq
  have h2 : ∀ x, crcShifts Config.params 2 x = x → x = 0 := fun x => eq_zero_of_crcShifts_double_eq h1
  have h4 : ∀ x, crcShifts Config.params 4 x = x → x = 0 := fun x => eq_zero_of_crcShifts_double_eq h2
  rw [hstep]
  constructor
  · exact eq_zero_of_crcShifts_double_eq h4
  · rintro rfl
    exact crcShifts_zero _ 8

/-! ### The fold -/

theorem crcFold_append (p : Params) (a : Word) (s t : List Byte) :
    crcFold p a (s ++ t) = crcFold p (crcFold p a s) t := by
  induction s generalizing a with
  | nil => rfl
  | cons b s ih => exact ih (crcStep p a b)

/-- The step is additive in the accumulator and the byte together. -/
theorem crcStep_xor (p : Params) (x y : Word) (b c : Byte) :
    crcStep p (x ^^^ y) (b ^^^ c) = crcStep p x b ^^^ crcStep p y c := by
  have hsplit : (x ^^^ y) ^^^ (b ^^^ c).setWidth 32 = (x ^^^ b.setWidth 32) ^^^ (y ^^^ c.setWidth 32) := by
    rw [BitVec.setWidth_xor]
    ac_rfl
  simp only [crcStep, hsplit, crcShifts_xor]

/-- The fold is additive in the accumulator and the bytes together. -/
theorem crcFold_xor (p : Params) (x y : Word) {a b : List Byte} (h : a.length = b.length) :
    crcFold p (x ^^^ y) (List.zipWith (· ^^^ ·) a b) = crcFold p x a ^^^ crcFold p y b := by
  induction a generalizing b x y with
  | nil =>
    cases b with
    | nil => rfl
    | cons => cases h
  | cons c a ih =>
    cases b with
    | nil => cases h
    | cons d b =>
      simp only [List.zipWith_cons_cons, crcFold, crcStep_xor]
      exact ih _ _ (Nat.succ.inj h)

/-- Zero bytes are neutral for the bytewise xor. -/
theorem zipWith_xor_zeros (s : List Byte) : List.zipWith (· ^^^ ·) s (List.replicate s.length 0) = s := by
  induction s with
  | nil => rfl
  | cons b s ih =>
    rw [List.length_cons, List.replicate_succ, List.zipWith_cons_cons, ih]
    exact congrArg (· :: s) BitVec.xor_zero

theorem xor_self_xor_self (x : Word) : x ^^^ x ^^^ x = x := by
  rw [BitVec.xor_self, BitVec.zero_xor]

/-- Settles O27: the fold is additive, and an odd number of copies of `CRC_INIT` or of `CRC_XOROUT` sums up to one. -/
theorem crcIsAffine : Obligations.CrcIsAffine := by
  intro p a b h
  have hlen : (List.zipWith (· ^^^ ·) a b).length = a.length := by simp [← h]
  have hzeros : List.zipWith (· ^^^ ·) (List.zipWith (· ^^^ ·) a b) (List.replicate a.length 0) =
      List.zipWith (· ^^^ ·) a b := by
    simpa only [hlen] using zipWith_xor_zeros (List.zipWith (· ^^^ ·) a b)
  have hfold : crcFold p p.crcInit (List.zipWith (· ^^^ ·) a b) =
      crcFold p p.crcInit a ^^^ crcFold p p.crcInit b ^^^ crcFold p p.crcInit (List.replicate a.length 0) := by
    rw [← crcFold_xor p _ _ h, ← crcFold_xor p _ _ (by rw [hlen, List.length_replicate]), xor_self_xor_self, hzeros]
  calc
    crc32 p (List.zipWith (· ^^^ ·) a b) = (p.crcXorOut ^^^ p.crcXorOut ^^^ p.crcXorOut) ^^^ (crcFold p p.crcInit a ^^^
        crcFold p p.crcInit b ^^^ crcFold p p.crcInit (List.replicate a.length 0)) := by
      rw [crc32, hfold, xor_self_xor_self]
    _ = crc32 p a ^^^ crc32 p b ^^^ crc32 p (List.replicate a.length 0) := by
      simp only [crc32]
      ac_rfl

/-! ### Four bits at a time -/

/-- Passes over zero low bits only shift. -/
theorem crcShifts_of_low_zero (p : Params) (n : Nat) {x : Word} (h : ∀ i < n, x.getLsbD i = false) :
    crcShifts p n x = x >>> n := by
  induction n generalizing x with
  | zero => exact (BitVec.ushiftRight_zero x).symm
  | succ n ih =>
    have hshift : crcShift p x = x >>> 1 := if_neg (by rw [h 0 n.succ_pos]; decide)
    have hlow : ∀ i < n, (x >>> 1).getLsbD i = false := fun i hi => by
      rw [BitVec.getLsbD_ushiftRight]
      exact h (1 + i) (by omega)
    rw [crcShifts, hshift, ih hlow, ← BitVec.shiftRight_add, Nat.add_comm]

/-- `n` passes shift the upper bits down and add what the low `n` bits become. -/
theorem crcShifts_split (p : Params) (n : Nat) (x : Word) :
    crcShifts p n x = (x >>> n) ^^^ crcShifts p n ((x.extractLsb' 0 n).setWidth 32) := by
  generalize hlo : (x.extractLsb' 0 n).setWidth 32 = lo
  have hlow : ∀ i < n, (x ^^^ lo).getLsbD i = false := fun i hi => by
    have hbit : lo.getLsbD i = x.getLsbD i := by
      subst hlo
      simpa [hi] using fun hx => BitVec.lt_of_getLsbD hx
    rw [BitVec.getLsbD_xor, hbit, Bool.xor_self]
  have hgone : lo >>> n = 0 := by
    subst hlo
    ext i hi
    simp
  calc
    crcShifts p n x = crcShifts p n ((x ^^^ lo) ^^^ lo) := by rw [BitVec.xor_assoc, BitVec.xor_self, BitVec.xor_zero]
    _ = ((x ^^^ lo) >>> n) ^^^ crcShifts p n lo := by rw [crcShifts_xor, crcShifts_of_low_zero p n hlow]
    _ = (x >>> n) ^^^ crcShifts p n lo := by rw [BitVec.ushiftRight_xor_distrib, hgone]; simp

theorem nibbleTable_getD : ∀ i < 16, nibbleTable.getD i 0 = crcStep4 Config.params (BitVec.ofNat 32 i) := by decide

/-- Four passes are a look-up at the low nibble. -/
theorem crcStep4_eq_table (y : Word) :
    crcStep4 Config.params y = (y >>> 4) ^^^ nibbleTable.getD (y.extractLsb' 0 4).toNat 0 := by
  have htable : nibbleTable.getD (y.extractLsb' 0 4).toNat 0 =
      crcStep4 Config.params ((y.extractLsb' 0 4).setWidth 32) := by
    rw [nibbleTable_getD _ (BitVec.isLt _), BitVec.ofNat_toNat]
  rw [htable]
  exact crcShifts_split Config.params 4 y

/-- One half of the nibble form is four passes, but for the bits of the operand above the nibble. -/
theorem nibbleHalf_eq (acc x : Word) : nibbleHalf acc x = crcStep4 Config.params (acc ^^^ x) ^^^ (x >>> 4) := by
  have hacc : acc >>> 4 = ((acc ^^^ x) >>> 4) ^^^ (x >>> 4) := by
    rw [BitVec.ushiftRight_xor_distrib, BitVec.xor_assoc, BitVec.xor_self, BitVec.xor_zero]
  rw [nibbleHalf, crcStep4_eq_table, hacc]
  ac_rfl

/-- Settles O28: the upper nibble of the byte, which the first half leaves out, is what the second half brings in. -/
theorem nibbleFormAgrees : Obligations.NibbleFormAgrees := by
  refine ⟨⟨rfl, nibbleTable_getD⟩, fun acc d => ?_⟩
  have hupper : (d >>> 4).setWidth 32 = d.setWidth 32 >>> 4 := by
    ext i hi
    simp
  have hgone : (d >>> 4).setWidth 32 >>> 4 = 0#32 := by
    ext i hi
    simp
  calc
    crcStepNibble acc d = crcStep4 Config.params (crcStep4 Config.params (acc ^^^ d.setWidth 32)) := by
      rw [crcStepNibble, nibbleHalf_eq, hgone, BitVec.xor_zero, nibbleHalf_eq, hupper, BitVec.xor_assoc, BitVec.xor_self,
        BitVec.xor_zero]
    _ = crcStep Config.params acc d := (crcShifts_add Config.params 4 4 _).symm

end Sys2Proof.Machine
end

section
/-! The CRC operations: encodings, whole effects and errors (40_crc32.md R81 to R86, 30_encoding.md R61, R62). -/

namespace Sys2Proof.Machine

/-- The words 0x01dd with dd not 0x00 are reserved (40_crc32.md R81). -/
theorem decodePortWord_crcInit_reserved {d : Byte} (hd : d ≠ 0) :
    decodePortWord (portWord 0x01#8 d) = .rejected (.reserved (portWord 0x01#8 d)) := by
  have hrow : decodePortWord (portWord 0x01#8 d) = formatN (portWord 0x01#8 d) .crcInit := by simp [decodePortWord]
  rw [hrow]
  exact if_neg (by rwa [byteField_portWord])

/-- Settles O22: the decoder's rows, the error of a reserved word, and the meaning itself. -/
theorem crcInitEffect : Obligations.CrcInitEffect := by
  refine ⟨rfl, decodePortWord_crcInit, fun d hd => ?reserved, rfl, fun s => rfl⟩
  case reserved =>
    rw [← portWord_eq_append]
    refine ⟨decodePortWord_crcInit_reserved hd, fun s t rest hdone hp h => ?_⟩
    rw [step_of_issue hdone hp, decode_port_singleton, decodePortWord_crcInit_reserved hd] at h
    cases h
    rfl

/-- Settles O24: the meaning on a set and on an unset `ACC`; a read leaves `ACC`, so a second one answers the same. -/
theorem crcReadEffect : Obligations.CrcReadEffect := by
  refine ⟨rfl, decodePortWord_crcRead, fun s a ha => ?value, fun s t hu h => ?unset, rfl, fun s t a ha h => ?again,
    fun s t h => ?afterInit, by decide +kernel⟩
  case value =>
    rw [exec_crcRead, crcRead_of_val _ ha]
    rfl
  case unset =>
    rw [exec_crcRead, crcRead_of_unset _ hu] at h
    cases h
    exact State.raise_portFault _ _ rfl
  case again =>
    rw [exec_crcRead, crcRead_of_val _ ha] at h
    cases h
    rw [exec_crcRead, crcRead_of_val (s := s.ret _) _ ha]
    rfl
  case afterInit =>
    cases h
    rw [exec_crcRead, crcRead_of_val _ (crcInit_acc _ s)]
    rfl

/-- Settles O23: the meaning on a set and on an unset `ACC`, and the fixed points of eight passes. -/
theorem crcByteEffect : Obligations.CrcByteEffect := by
  refine ⟨fun d => ?encoding, fun d s a ha => ?value, fun d s t hu h => ?unset, rfl, crcStep_zero_eq_iff, by decide⟩
  case encoding =>
    rw [← portWord_eq_append]
    exact ⟨rfl, decodePortWord_crcByte d⟩
  case value =>
    rw [exec_crcByte, crcByte_of_val _ d ha]
    rfl
  case unset =>
    rw [exec_crcByte, crcByte_of_unset _ d hu] at h
    cases h
    exact State.raise_portFault _ _ rfl

/-- A run of CRC.BYTE on a set `ACC` changes `ACC` and the result only. Which result it leaves depends on whether the run is
empty, so it is not named. -/
theorem crcBytes_eq (p : Params) (ds : List Byte) {s : State} {a : Word} (h : s.acc = .val a) :
    ∃ r, crcBytes p ds s = { s with acc := .val (crcFold p a ds), result := r } := by
  induction ds generalizing s a with
  | nil => exact ⟨s.result, by rw [crcFold, ← h]; rfl⟩
  | cons d ds ih =>
    obtain ⟨r, hr⟩ := ih (s := crcByte p d s) (a := crcStep p a d) (by rw [crcByte_of_val p d h]; rfl)
    refine ⟨r, ?_⟩
    rw [crcBytes, hr, crcByte_of_val p d h]
    rfl

/-- Settles O25: CRC.INIT sets `ACC`, the run of CRC.BYTE folds into it, CRC.READ writes the result over whatever the run left
there. -/
theorem crc32PseudoResult : Obligations.Crc32PseudoResult := by
  refine ⟨fun bytes s => ?result, by decide⟩
  case result =>
    have hacc := crcBytes_acc Config.params bytes (crcInit_acc Config.params s)
    obtain ⟨r, hr⟩ := crcBytes_eq Config.params bytes (crcInit_acc Config.params s)
    rw [exec_crc32Pseudo, crcRead_of_val _ hacc, hr, BitVec.xor_comm]
    rfl

/-- CRC.READ leaves `ACC`, set or not (40_crc32.md R83). -/
@[simp] theorem crcRead_acc (p : Params) (s : State) : (crcRead p s).acc = s.acc := by
  cases hs : s.acc with
  | unset => rw [crcRead_of_unset p hs, State.raise_acc, hs]
  | val v => rw [crcRead_of_val p hs, State.ret_acc, hs]

/-- Settles O26: the fold over an appended list, and CRC.READ leaving `ACC` between the runs. -/
theorem crcStreams : Obligations.CrcStreams := by
  refine ⟨crcFold_append, fun p a bs cs s h => ?_⟩
  have hread : (crcRead p (crcBytes p bs s)).acc = .val (crcFold p a bs) := by
    rw [crcRead_acc, crcBytes_acc p bs h]
  rw [crcBytes_acc p cs hread, crcFold_append]

end Sys2Proof.Machine
end

section
/-! The CHK operations and CHECKSUM: encodings, whole effects, errors (41_checksum.md R101 to R106, 30_encoding.md R61, R62). -/

namespace Sys2Proof.Machine

/-! ### The sum of a run of bytes -/

/-- Addition modulo 256 commutes, so bytes may be summed in any order (41_checksum.md R102). -/
theorem foldl_add_perm {ds es : List Byte} (h : ds.Perm es) (c : Byte) : ds.foldl (· + ·) c = es.foldl (· + ·) c :=
  h.foldl_eq' (fun x _ y _ z => add_right_comm z x y) c

/-- A byte sum is the sum of the numbers, cut to 256 (41_checksum.md R100). -/
theorem add_eq_ofNat_toNat_add (c d : Byte) : c + d = BitVec.ofNat 8 ((c.toNat + d.toNat) % 256) := by
  apply BitVec.eq_of_toNat_eq
  rw [BitVec.toNat_add, BitVec.toNat_ofNat, Nat.mod_mod]

/-- A run of CHK.BYTE on a set `CHK` changes `CHK` and the result only. Which result it leaves depends on whether the run is
empty, so it is not named. -/
theorem chkBytes_eq (ds : List Byte) {s : State} {c : Byte} (h : s.chk = .val c) :
    ∃ r, chkBytes ds s = { s with chk := .val (ds.foldl (· + ·) c), result := r } := by
  induction ds generalizing s c with
  | nil => exact ⟨s.result, by rw [List.foldl_nil, ← h]; rfl⟩
  | cons d ds ih =>
    obtain ⟨r, hr⟩ := ih (s := chkByte d s) (c := c + d) (by rw [chkByte_of_val d h]; rfl)
    refine ⟨r, ?_⟩
    rw [chkBytes, hr, chkByte_of_val d h]
    rfl

/-! ### CHK.BYTE -/

/-- Settles O30: the meaning on a set and on an unset `CHK`, and the sum of a permuted run of bytes. -/
theorem chkByteEffect : Obligations.ChkByteEffect := by
  refine ⟨fun d => ?encoding, fun d s c hc => ?value, fun d s t hu h => ?unset, rfl, fun ds es s c hc hperm => ?order⟩
  case encoding =>
    rw [← portWord_eq_append]
    exact ⟨rfl, decodePortWord_chkByte d⟩
  case value =>
    rw [exec_chkByte, chkByte_of_val d hc, add_eq_ofNat_toNat_add]
    rfl
  case unset =>
    rw [exec_chkByte, chkByte_of_unset d hu] at h
    cases h
    exact State.raise_portFault _ _ rfl
  case order =>
    rw [chkBytes_chk ds hc, chkBytes_chk es hc, foldl_add_perm hperm]

/-! ### CHECKSUM and the reply's check byte -/

/-- CHECKSUM in every state: CHK.INIT sets `CHK`, the run of CHK.BYTE sums into it, CHK.READ writes the result over whatever the
run left there. The first byte of the run is the opcode, where `checksum` starts. -/
theorem exec_checksumPseudo_eq (opc : Byte) (p : List Byte) (s : State) : exec (.checksumPseudo opc p) s =
    .next { s with chk := .val (checksum opc p), result := some (.ok (.u8 (checksum opc p))) } := by
  have hsum : (opc :: p).foldl (· + ·) 0 = checksum opc p := by rw [List.foldl_cons, zero_add, checksum]
  have hchk : (chkBytes (opc :: p) (chkInit s)).chk = .val (checksum opc p) := by
    rw [chkBytes_chk _ (chkInit_chk s), hsum]
  obtain ⟨r, hr⟩ := chkBytes_eq (opc :: p) (chkInit_chk s)
  rw [exec_checksumPseudo, chkRead_of_val hchk, hr, hsum]
  rfl

/-- Settles O32: the sum in Nat, the packet's second byte, and the whole effect of CHECKSUM. -/
theorem checksumPseudoResult : Obligations.ChecksumPseudoResult :=
  ⟨toNat_checksum, fun _ _ => rfl, exec_checksumPseudo_eq⟩

/-- Settles O33: the sum in Nat of the data, which for no data is 0. -/
theorem replyCheckByte : Obligations.ReplyCheckByte :=
  ⟨toNat_dsum, rfl⟩

/-! ### CHK.INIT -/

/-- The words 0x11dd with dd not 0x00 are reserved (41_checksum.md R101): of the assigned words only 0x1100 has the field
`op` 0x11. -/
theorem not_assignedPortWord_chkInit {d : Byte} (hd : d ≠ 0) : ¬ AssignedPortWord (portWord 0x11 d) := by
  have hop : opField (portWord 0x11 d) = 0x11 := opField_portWord 0x11 d
  have hbyte : byteField (portWord 0x11 d) = d := byteField_portWord 0x11 d
  rintro (hcrcInit | hcrcRead | hchkInit | hchkRead | hcrcByte | hchkByte)
  · exact absurd (hop.symm.trans (congrArg opField hcrcInit)) (by decide)
  · exact absurd (hop.symm.trans (congrArg opField hcrcRead)) (by decide)
  · exact hd (hbyte.symm.trans (congrArg byteField hchkInit))
  · exact absurd (hop.symm.trans (congrArg opField hchkRead)) (by decide)
  · exact absurd (hop.symm.trans hcrcByte) (by decide)
  · exact absurd (hop.symm.trans hchkByte) (by decide)

/-- Settles O29: the decoder's row, the error of a reserved word by O11, and the meaning itself. -/
theorem chkInitEffect : Obligations.ChkInitEffect := by
  obtain ⟨-, hreject, hkind, hstep⟩ := reservedPortWordsAreUnsupported
  refine ⟨rfl, decodePortWord_chkInit, fun d hd => ?reserved, hkind, fun s => rfl⟩
  case reserved =>
    rw [← portWord_eq_append]
    have hna := not_assignedPortWord_chkInit hd
    exact ⟨hreject _ hna, fun s t rest hdone hp h => congrArg State.result (hstep s t _ rest hna hdone hp h)⟩

/-! ### CHK.READ -/

/-- Settles O31: the meaning on a set and on an unset `CHK`, and the reads after CHK.INIT and after CHECKSUM. -/
theorem chkReadEffect : Obligations.ChkReadEffect := by
  refine ⟨rfl, decodePortWord_chkRead, fun s c hc => ?value, fun s t hu h => ?unset, rfl, fun s t h => ?afterInit,
    fun s t h => ?afterChecksum⟩
  case value =>
    rw [exec_chkRead, chkRead_of_val hc]
    rfl
  case unset =>
    rw [exec_chkRead, chkRead_of_unset hu] at h
    cases h
    exact State.raise_portFault _ _ rfl
  case afterInit =>
    cases h
    rw [exec_chkRead, chkRead_of_val (chkInit_chk s)]
    rfl
  case afterChecksum =>
    have hchk : t.chk = .val 0x20 := by
      rw [exec_checksumPseudo_eq] at h
      cases h
      rfl
    rw [exec_chkRead, chkRead_of_val hchk]
    rfl

end Sys2Proof.Machine
end

section
/-! The preconditions of CRC32.DEV and its two ranges (42_crc32_command.md R122 to R125). -/

namespace Sys2Proof.Machine

/-! ### The ranges -/

theorem inFlash_params_iff (x : Session) (start count : Nat) :
    inFlash Config.params x start count = true ↔ 0x00000000 ≤ start ∧ start + count ≤ 0x00000000 + x.flashSize :=
  decide_eq_true_iff

theorem inRam_params_iff (x : Session) (start count : Nat) :
    inRam Config.params x start count = true ↔ 0x20000000 ≤ start ∧ start + count ≤ 0x20000000 + x.ramSize :=
  decide_eq_true_iff

/-- Settles O38: the two inequalities, and the bounds that a session puts on the ends of the two regions. -/
theorem rangePredicates : Obligations.RangePredicates := by
  refine ⟨fun x start count => ⟨inFlash_params_iff x start count, inRam_params_iff x start count⟩,
    fun x start count hx hpast => ?_⟩
  obtain ⟨-, hflash, hram⟩ := hx
  have hflash : x.flashSize ≤ 0xFF000 := hflash
  have hram : 0x20000000 + x.ramSize ≤ 2 ^ 32 := hram
  rw [Bool.eq_false_iff, Bool.eq_false_iff, ne_eq, ne_eq, inFlash_params_iff, inRam_params_iff]
  omega

/-! ### Steps 1 and 2 -/

/-- The error of steps 1 and 2 in the machine's parameters, with the ranges written out (60_exceptions.md R153). -/
theorem precheck_params (x : Session) (start count : Word) : precheck Config.params x start.toNat count.toNat =
    if x.portOpen = false then some ⟨.transportNotOpen, .none⟩
    else if x.linkActive = false then some ⟨.linkNotActive, .none⟩
    else if count = 0 then some ⟨.emptyRange, .range start.toNat 0⟩
    else if ¬ (start.toNat + count.toNat ≤ x.flashSize) ∧
        ¬ (0x20000000 ≤ start.toNat ∧ start.toNat + count.toNat ≤ 0x20000000 + x.ramSize) then
      some ⟨.rangeOutside, .range start.toNat count.toNat⟩
    else none := by
  have hzero : count.toNat = 0 ↔ count = 0 := BitVec.toNat_inj (y := 0)
  have hrange : (!(inFlash Config.params x start.toNat count.toNat || inRam Config.params x start.toNat count.toNat)) = true ↔
      ¬ (start.toNat + count.toNat ≤ x.flashSize) ∧
        ¬ (0x20000000 ≤ start.toNat ∧ start.toNat + count.toNat ≤ 0x20000000 + x.ramSize) := by
    rw [Bool.not_eq_true', Bool.or_eq_false_iff, Bool.eq_false_iff, Bool.eq_false_iff, ne_eq, ne_eq, inFlash_params_iff,
      inRam_params_iff, Nat.zero_add, and_iff_right (Nat.zero_le _)]
  simp only [precheck, Bool.not_eq_true', hzero, hrange]
  rcases eq_or_ne count 0 with rfl | hne
  · rfl
  · simp only [if_neg hne]

/-- CRC32.DEV is admitted if and only if steps 1 and 2 raise no error. -/
theorem precheck_eq_none_iff (start count : Word) (s : State) :
    precheck Config.params s.session start.toNat count.toNat = none ↔ Admitted start count s := by
  rw [precheck_params, Admitted]
  split_ifs with hport hlink hcount hrange
  · simp [hport]
  · simp [hlink]
  · simp [hcount]
  · simp only [false_iff]
    tauto
  · rw [eq_self, true_iff]
    exact ⟨Bool.eq_true_of_not_eq_false hport, Bool.eq_true_of_not_eq_false hlink, hcount, by tauto⟩

/-- An error of codes 1 to 5 ends CRC32.DEV with a changed phase and a changed result. -/
theorem failExchange_eq {e : ErrInfo} (h : e.isPortFault = false) (s : State) :
    failExchange e s = { s with seq := { s.seq with phase := .done }, result := some (.err e) } :=
  State.raise_ordinary _ e h

theorem crc32Dev_of_precheck {p : Params} {start count : Word} {s : State} {e : ErrInfo}
    (h : precheck p s.session start.toNat count.toNat = some e) : crc32Dev p start count s = failExchange e s := by
  simp only [crc32Dev, h]

theorem crc32Dev_of_precheck_none {p : Params} {start count : Word} {s : State}
    (h : precheck p s.session start.toNat count.toNat = none) : crc32Dev p start count s = exchange p start count s := by
  simp only [crc32Dev, h]

/-- An error of step 1 or 2 in the machine: the phase and the result change, nothing else. -/
theorem exec_crc32Dev_of_precheck {start count : Word} {s : State} {e : ErrInfo}
    (h : precheck Config.params s.session start.toNat count.toNat = some e) :
    exec (.crc32Dev start count) s =
      .next { s with seq := { s.seq with phase := .done }, result := some (.err e) } := by
  rw [exec_crc32Dev, crc32Dev_of_precheck h, failExchange_eq (isPortFault_of_precheck h)]

theorem exec_crc32Dev_of_precheck_none {start count : Word} {s : State}
    (h : precheck Config.params s.session start.toNat count.toNat = none) :
    exec (.crc32Dev start count) s = .next (exchange Config.params start count s) := by
  rw [exec_crc32Dev, crc32Dev_of_precheck_none h]

theorem exec_crc32Dev_of_admitted {start count : Word} {s : State} (h : Admitted start count s) :
    exec (.crc32Dev start count) s = .next (exchange Config.params start count s) :=
  exec_crc32Dev_of_precheck_none ((precheck_eq_none_iff start count s).mpr h)

/-- A CRC32.DEV that is not admitted has an error of step 1 or 2. -/
theorem precheck_of_not_admitted {start count : Word} {s : State} (h : ¬ Admitted start count s) :
    ∃ e, precheck Config.params s.session start.toNat count.toNat = some e :=
  Option.ne_none_iff_exists'.mp (mt (precheck_eq_none_iff start count s).mp h)

/-- Settles O39: the chain of the preconditions, each error with the state it leaves. -/
theorem crcDevPreconditions : Obligations.CrcDevPreconditions := by
  refine ⟨rfl, rfl, rfl, rfl, fun start count s => ?_⟩
  have hpre := precheck_params s.session start count
  split_ifs at hpre ⊢
  next => exact exec_crc32Dev_of_precheck hpre
  next => exact exec_crc32Dev_of_precheck hpre
  next => exact exec_crc32Dev_of_precheck hpre
  next => exact exec_crc32Dev_of_precheck hpre
  next => exact exec_crc32Dev_of_precheck_none hpre

end Sys2Proof.Machine
end

section
/-! How an exchange can end, whatever the transport answers, and what it has sent by then (42_crc32_command.md R127 to R136). -/

namespace Sys2Proof.Machine

/-! ### The command -/

@[simp] theorem sendCommand_sent (p : Params) (start count : Word) (s : State) :
    (sendCommand p start count s).2.link.sent =
      s.link.sent ++ [⟨crc32Packet p start count, s.link.nextAccept⟩] := rfl

theorem keepsBlock_sendCommand (p : Params) (start count : Word) (s : State) :
    KeepsBlock s (sendCommand p start count s).2 := ⟨rfl, rfl, rfl, rfl, rfl, rfl⟩

/-- A write of the command that fails ends the exchange (42_crc32_command.md R127). -/
theorem exchange_of_rejected {p : Params} {start count : Word} {s : State} (h : s.link.nextAccept = false) :
    exchange p start count s = failExchange ⟨.commandWrite, .none⟩ (sendCommand p start count s).2 :=
  if_neg (by rw [show (sendCommand p start count s).1 = false from h]; decide)

theorem exchange_of_accepted {p : Params} {start count : Word} {s : State} (h : s.link.nextAccept = true) :
    exchange p start count s = awaitAnswer p (sendCommand p start count s).2 :=
  if_pos h

/-! ### After the command -/

/-- The failures of step 5 (42_crc32_command.md R131). -/
def replyFaults : List Reason := [.shortHeader, .lengthBelowTwo, .shortData, .checkMismatch, .notFourBytes]

theorem kind_of_mem_replyFaults : ∀ why ∈ replyFaults, why.kind = .protocolError := by decide

/-- How steps 4 to 6 can have ended in `t`, and the writes that they made. -/
inductive AnswerEnd (p : Params) (t : State) : List WriteRecord → Prop
  | timeout (h : t.result = some (.err ⟨.noAckNak, .attempts (p.crcAckRetries + 1)⟩)) : AnswerEnd p t []
  | deviceNak (h : t.result = some (.err ⟨.deviceNaked, .replyBytes []⟩)) : AnswerEnd p t []
  | hostNak (b : Bool) (why : Reason) (hwhy : why ∈ replyFaults)
      (h : t.result = some (.err ⟨why, .replyBytes t.seq.rx⟩)) : AnswerEnd p t [⟨[p.nakByte], b⟩]
  | hostAck (b : Bool) (data : List Byte) (hlen : data.length = p.crcReplyLen) (hrx : t.seq.rx = replyPacket data)
      (h : t.result = some (if b then .ok (.u32 (fromBe32 data)) else .err ⟨.ackWrite, .none⟩)) :
      AnswerEnd p t [⟨[p.ackByte], b⟩]

/-- The host sends at most one byte after the command, an ACK or a NAK (42_crc32_command.md R135). -/
theorem AnswerEnd.writes {p : Params} {t : State} {more : List WriteRecord} (h : AnswerEnd p t more) :
    more.length ≤ 1 ∧ ∀ r ∈ more, r.bytes = [p.ackByte] ∨ r.bytes = [p.nakByte] := by
  cases h <;> simp

/-- From `s` on, the exchange ended in `t`: phase Done, the block as it was, and one of the ends above. -/
structure Answered (p : Params) (s t : State) : Prop where
  keeps : KeepsBlock s t
  phase : t.seq.phase = .done
  ends : ∃ more, t.link.sent = s.link.sent ++ more ∧ AnswerEnd p t more

/-- What changed nothing of the block and wrote nothing may come before. -/
theorem Answered.after {p : Params} {s u t : State} (h : Answered p u t) (hkeeps : KeepsBlock s u)
    (hsent : u.link.sent = s.link.sent) : Answered p s t :=
  ⟨hkeeps.trans h.keeps, h.phase, hsent ▸ h.ends⟩

theorem nakFail_answered (p : Params) {why : Reason} (hwhy : why ∈ replyFaults) (s : State) :
    Answered p s (nakFail p why s) := by
  obtain ⟨hkeeps, hseq, hlink, hresult⟩ := nakFail_spec p why s (kind_of_mem_replyFaults why hwhy)
  exact ⟨hkeeps, by rw [hseq], _, by rw [hlink]; rfl, .hostNak _ why hwhy (by rw [hresult, hseq])⟩

theorem ackTimeout_answered (p : Params) {s : State} (h : s.seq.attempts = p.crcAckRetries + 1) :
    Answered p s (ackTimeout s) := by
  obtain ⟨hkeeps, hseq, hlink, hresult⟩ := failExchange_spec ⟨.noAckNak, .attempts s.seq.attempts⟩ s rfl
  exact ⟨hkeeps, congrArg Seq.phase hseq, [], (congrArg Link.sent hlink).trans (List.append_nil _).symm,
    .timeout (by rw [← h]; exact hresult)⟩

theorem deviceNak_answered (p : Params) {s : State} (h : s.seq.rx = []) : Answered p s (deviceNak s) := by
  obtain ⟨hkeeps, hseq, hlink, hresult⟩ := failExchange_spec ⟨.deviceNaked, .replyBytes s.seq.rx⟩ s rfl
  exact ⟨hkeeps, congrArg Seq.phase hseq, [], (congrArg Link.sent hlink).trans (List.append_nil _).symm,
    .deviceNak (by rw [← h]; exact hresult)⟩

/-- The judging of a reply whose header gives the length of its data. -/
theorem judgeReply_answered (p : Params) (rcks : Byte) (data : List Byte) (s : State)
    (hrx : s.seq.rx = BitVec.ofNat 8 (2 + data.length) :: rcks :: data) : Answered p s (judgeReply p rcks data s) := by
  obtain ⟨hkeeps, hseq, -, ⟨b, why, hsent, hresult, hwhy⟩ | ⟨hsum, hlen, b, hsent, hresult⟩⟩ :=
    judgeReply_spec p rcks data s
  · have hmem : why ∈ replyFaults := by
      obtain ⟨rfl, -⟩ | ⟨rfl, -⟩ := hwhy <;> decide
    exact ⟨hkeeps, by rw [hseq], _, hsent, .hostNak b why hmem (by rw [hresult, hseq])⟩
  · exact ⟨hkeeps, by rw [hseq], _, hsent, .hostAck b data hlen (by rw [hseq, hrx, ← hsum]; rfl) hresult⟩

theorem receiveData_answered (p : Params) (rlen rcks : Byte) (s : State) (hattempts : s.seq.attempts ≤ p.crcDataRetries)
    (hrx : s.seq.rx = [rlen, rcks]) : Answered p s (receiveData p rlen rcks s) := by
  simp only [receiveData]
  split
  next => exact nakFail_answered p (by decide) s
  next htwo =>
    obtain ⟨hkeeps, -, -, -, hsent, -, -, -, ⟨data, hdata, hlen, -, hrx', -⟩ | ⟨hnone, -⟩⟩ :=
      recvExact_spec p (rlen.toNat - 2) s hattempts
    · have hrlen : rlen = BitVec.ofNat 8 (2 + data.length) := by
        rw [hlen, Nat.add_sub_cancel' (Nat.le_of_not_lt htwo), BitVec.ofNat_toNat, BitVec.setWidth_eq]
      rw [hdata]
      exact (judgeReply_answered p rcks data _ (by rw [hrx', hrx, ← hrlen]; rfl)).after hkeeps hsent
    · rw [hnone]
      exact (nakFail_answered p (by decide) _).after hkeeps hsent

theorem receiveReply_answered (p : Params) (s : State) (hattempts : s.seq.attempts ≤ p.crcDataRetries)
    (hrx : s.seq.rx = []) : Answered p s (receiveReply p s) := by
  simp only [receiveReply]
  obtain ⟨hkeeps, -, -, -, hsent, -, -, -, ⟨hdr, hhdr, hlen, -, hrx', hwithin⟩ | ⟨hnone, -⟩⟩ :=
    recvExact_spec p 2 s hattempts
  · obtain ⟨rlen, rcks, rfl⟩ := List.length_eq_two.mp hlen
    rw [hhdr]
    exact (receiveData_answered p rlen rcks _ hwithin (by rw [hrx', hrx]; rfl)).after hkeeps hsent
  · rw [hnone]
    exact (nakFail_answered p (by decide) _).after hkeeps hsent

theorem awaitAnswer_answered (p : Params) (s : State) (hattempts : s.seq.attempts = 0) (hrx : s.seq.rx = []) :
    Answered p s (awaitAnswer p s) := by
  obtain ⟨⟨hkeeps, -, -, -, hrx', hsent, -⟩, -, -, -, htimeout⟩ := recvAck_spec p (p.crcAckRetries + 1) s
  simp only [awaitAnswer]
  split
  next ha =>
    have hused := htimeout ha
    rw [hattempts, Nat.zero_add] at hused
    exact (ackTimeout_answered p hused).after hkeeps hsent
  next => exact (deviceNak_answered p (hrx'.trans hrx)).after hkeeps hsent
  next =>
    have hdata := receiveReply_answered p (enterData (recvAck p (p.crcAckRetries + 1) s).2) (Nat.zero_le _) (hrx'.trans hrx)
    exact hdata.after (hkeeps.trans (keepsBlock_setSeq _ _)) hsent

/-! ### The whole exchange -/

/-- An exchange whose command the transport took ends in one of the ways of steps 4 to 6. -/
theorem exchange_answered {p : Params} {start count : Word} {s : State} (h : s.link.nextAccept = true) :
    Answered p (sendCommand p start count s).2 (exchange p start count s) := by
  rw [exchange_of_accepted h]
  exact awaitAnswer_answered p _ rfl rfl

/-- An exchange keeps the block and ends with phase Done; it sends the command and at most one host ACK or NAK byte. -/
theorem exchange_spec (p : Params) (start count : Word) (s : State) :
    KeepsBlock s (exchange p start count s) ∧ (exchange p start count s).seq.phase = .done ∧
      ∃ more, (exchange p start count s).link.sent =
          s.link.sent ++ ⟨crc32Packet p start count, s.link.nextAccept⟩ :: more ∧
        more.length ≤ 1 ∧ ∀ r ∈ more, r.bytes = [p.ackByte] ∨ r.bytes = [p.nakByte] := by
  have hkeeps := keepsBlock_sendCommand p start count s
  cases hw : s.link.nextAccept with
  | false =>
    obtain ⟨hfail, hseq, hlink, -⟩ := failExchange_spec ⟨.commandWrite, .none⟩ (sendCommand p start count s).2 rfl
    rw [exchange_of_rejected hw]
    exact ⟨hkeeps.trans hfail, by rw [hseq], [], by rw [hlink, sendCommand_sent, hw], by simp, by simp⟩
  | true =>
    obtain ⟨hends, hphase, more, hsent, hend⟩ := exchange_answered (p := p) (start := start) (count := count) hw
    exact ⟨hkeeps.trans hends, hphase, more, by rw [hsent, sendCommand_sent, hw, List.append_assoc]; rfl, hend.writes⟩

/-- CRC32.DEV in every state, admitted or not, keeps the block and ends with phase Done (42_crc32_command.md R136). -/
theorem crc32Dev_keeps (p : Params) (start count : Word) (s : State) :
    KeepsBlock s (crc32Dev p start count s) ∧ (crc32Dev p start count s).seq.phase = .done := by
  cases hp : precheck p s.session start.toNat count.toNat with
  | some e =>
    obtain ⟨hkeeps, hseq, -⟩ := failExchange_spec e s (isPortFault_of_precheck hp)
    rw [crc32Dev_of_precheck hp]
    exact ⟨hkeeps, by rw [hseq]⟩
  | none =>
    obtain ⟨hkeeps, hphase, -⟩ := exchange_spec p start count s
    rw [crc32Dev_of_precheck_none hp]
    exact ⟨hkeeps, hphase⟩

/-! ### What an admitted CRC32.DEV sends -/

/-- Settles O40: each of the ranges lies in RAM, so CRC32.DEV is admitted and sends its command. -/
theorem protectedMemoryAdmitted : Obligations.ProtectedMemoryAdmitted := by
  intro start count s hport hlink hcount hram hrange
  have hin : 0x20000000 ≤ start.toNat ∧ start.toNat + count.toNat ≤ 0x20000000 + s.session.ramSize := by
    simp only [Config.bootWork, Config.bootStack] at hrange
    omega
  obtain ⟨-, -, more, hsent, -⟩ := exchange_spec Config.params start count s
  exact ⟨_, _, more, exec_crc32Dev_of_admitted ⟨hport, hlink, hcount, .inr hin⟩, hsent⟩

/-- Settles O41: the writes of an exchange, and its end at a failed first write. -/
theorem commandSentOnce : Obligations.CommandSentOnce := by
  refine ⟨fun start count s ha => ?writes, fun start count s ha hw => ?rejected, rfl, fun _ _ => rfl⟩
  case writes =>
    obtain ⟨-, -, more, hsent, -, hbyte⟩ := exchange_spec Config.params start count s
    refine ⟨_, more, exec_crc32Dev_of_admitted ha, hsent, fun r hr => ?_⟩
    obtain h | h := hbyte r hr <;> rw [h] <;> rfl
  case rejected =>
    refine ⟨_, exec_crc32Dev_of_admitted ha, ?_⟩
    rw [exchange_of_rejected hw, failExchange_eq rfl, ← hw]
    exact ⟨rfl, rfl, rfl, rfl, rfl⟩

/-- Settles O46: a failed write of the command, and else the ends of steps 4 to 6. -/
theorem exchangeOutcomes : Obligations.ExchangeOutcomes := by
  intro start count s ha
  cases hw : s.link.nextAccept with
  | false =>
    refine ⟨_, [⟨crc32Packet Config.params start count, false⟩], exec_crc32Dev_of_admitted ha, ?_⟩
    rw [exchange_of_rejected hw, failExchange_eq rfl]
    exact ⟨rfl, by rw [sendCommand_sent, hw], .inl ⟨rfl, rfl⟩⟩
  | true =>
    obtain ⟨-, hphase, more, hsent, hend⟩ :=
      exchange_answered (p := Config.params) (start := start) (count := count) hw
    rw [sendCommand_sent, hw, List.append_assoc] at hsent
    refine ⟨_, _, exec_crc32Dev_of_admitted ha, hphase, hsent, .inr ?_⟩
    cases hend with
    | timeout h => exact .inl ⟨rfl, .inl h⟩
    | deviceNak h => exact .inl ⟨rfl, .inr h⟩
    | hostNak b why hwhy h => exact .inr (.inl ⟨b, why, rfl, h, kind_of_mem_replyFaults why hwhy, hwhy⟩)
    | hostAck b data hlen hrx h =>
      cases b with
      | false => exact .inr (.inr (.inl ⟨data, hlen, hrx, rfl, h⟩))
      | true => exact .inr (.inr (.inr ⟨data, hlen, hrx, rfl, h⟩))

/-- Settles O47: an error of step 1 or 2 sends nothing, and an exchange its command and at most one byte. -/
theorem bytesSentAtMost : Obligations.BytesSentAtMost := by
  intro start count s
  by_cases ha : Admitted start count s
  · obtain ⟨-, -, more, hsent, hmore⟩ := exchange_spec Config.params start count s
    exact ⟨_, exec_crc32Dev_of_admitted ha, fun hn => absurd ha hn, fun _ => ⟨_, more, hsent, hmore⟩⟩
  · obtain ⟨e, he⟩ := precheck_of_not_admitted ha
    exact ⟨_, exec_crc32Dev_of_precheck he, fun _ => rfl, fun hn => absurd hn ha⟩

/-! ### The frame -/

/-- The state with any content of what CRC32.DEV does not read, but for the last result. -/
def State.replaceUnread (acc : Reg 32) (chk : Reg 8) (rev : Revision) (m : Memory) (q : List HostInput)
    (log : List ErrInfo) (s : State) : State :=
  { s with acc := acc, chk := chk, session := { s.session with revision := rev }, dmem := m, pending := q, faultLog := log }

/-- The last result is not read either: the outcome of the operation replaces it. -/
theorem unread_replaceUnread (acc : Reg 32) (chk : Reg 8) (rev : Revision) (m : Memory) (q : List HostInput)
    (log : List ErrInfo) (r : Option OpResult) :
    Unread (fun s => { s.replaceUnread acc chk rev m q log with result := r })
      (State.replaceUnread acc chk rev m q log) where
  precheck_eq _ _ _ _ := rfl
  seq_eq _ := rfl
  link_eq _ := rfl
  setSeq_comm _ _ := rfl
  setLink_comm _ _ := rfl
  ret_comm _ _ := rfl
  raise_comm s e he := by
    rw [State.raise_ordinary _ e he, State.raise_ordinary _ e he]
    rfl

/-- Settles O48: what CRC32.DEV keeps, and that it commutes with every change of what it does not read. -/
theorem crcDevFrame : Obligations.CrcDevFrame := by
  intro start count s
  obtain ⟨⟨hacc, hchk, hsession, hdmem, hpending, hlog⟩, hphase⟩ := crc32Dev_keeps Config.params start count s
  refine ⟨_, exec_crc32Dev start count s, hphase, hacc, hchk, hsession, hpending, hlog, fun a => by rw [hdmem],
    fun acc chk rev m q log r => ⟨_, exec_crc32Dev _ _ _, ?_⟩⟩
  have hcomm := (unread_replaceUnread acc chk rev m q log r).crc32Dev_comm Config.params start count s
  exact ⟨(congrArg State.seq hcomm).trans rfl, (congrArg State.link hcomm).trans rfl,
    (congrArg State.result hcomm).trans rfl⟩

end Sys2Proof.Machine
end

section
/-! An exchange on a script of answers (42_crc32_command.md R128 to R134). -/

namespace Sys2Proof.Machine

/-! ### `RecvAck` -/

/-- `ACK_BYTE` and `NAK_BYTE` are distinct: their distance is between 1 and 255 (00_scope.md R6). -/
theorem ackByte_ne_nakByte : Config.params.ackByte ≠ Config.params.nakByte := by
  have hgap := Config.nakGap.isLt
  intro h
  have hsum : (Config.ackByte + BitVec.ofNat 8 (Config.nakGap.val + 1)).toNat = Config.ackByte.toNat :=
    congrArg BitVec.toNat h.symm
  simp only [BitVec.toNat_add, BitVec.toNat_ofNat] at hsum
  have hack := Config.ackByte.isLt
  omega

/-- The state after `n` attempts of `RecvAck` that leave these answers. -/
def State.afterAttempts (s : State) (n : Nat) (rest : List (List Byte)) : State :=
  { s with
    seq := { s.seq with attempts := s.seq.attempts + n }
    link := { s.link with reads := rest, nReads := s.link.nReads + n } }

theorem State.afterAttempts_add (s : State) (m n : Nat) (xs rest : List (List Byte)) :
    (s.afterAttempts m xs).afterAttempts n rest = s.afterAttempts (m + n) rest := by
  simp only [State.afterAttempts, Nat.add_assoc]

/-- One attempt of `RecvAck`: one read of one byte. -/
theorem recvAck_cons (p : Params) (n : Nat) {s : State} {x : List Byte} {rest : List (List Byte)}
    (h : s.link.reads = x :: rest) : recvAck p (n + 1) s =
      if x.take 1 = [p.ackByte] then (.ack, s.afterAttempts 1 rest)
      else if x.take 1 = [p.nakByte] then (.nak, s.afterAttempts 1 rest)
      else recvAck p n (s.afterAttempts 1 rest) := by
  simp only [recvAck, txRead_scripted 1 s.countAttempt x rest h]
  rfl

/-- Answers that are neither ACK nor NAK use up one attempt each. -/
theorem recvAck_noAnswers (p : Params) (n : Nat) {s : State} {junk rest : List (List Byte)}
    (h : s.link.reads = junk ++ rest) (hjunk : ∀ y ∈ junk, NoAnswer p y) :
    recvAck p (junk.length + n) s = recvAck p n (s.afterAttempts junk.length rest) := by
  induction junk generalizing s with
  | nil =>
    have hrest : s.afterAttempts 0 rest = s := by rw [← show s.link.reads = rest from h]; rfl
    rw [List.length_nil, Nat.zero_add, hrest]
  | cons y junk ih =>
    obtain ⟨⟨hack, hnak⟩, htail⟩ := List.forall_mem_cons.mp hjunk
    calc
      recvAck p ((y :: junk).length + n) s = recvAck p (junk.length + n) (s.afterAttempts 1 (junk ++ rest)) := by
        rw [List.length_cons, Nat.succ_add, recvAck_cons p _ h, if_neg hack, if_neg hnak, List.append_eq]
      _ = recvAck p n (s.afterAttempts (y :: junk).length rest) := by
        rw [ih rfl htail, State.afterAttempts_add, List.length_cons, Nat.add_comm 1]

/-- Within the budget, the first answer after those is judged with one attempt left or more. -/
theorem recvAck_noAnswers_cons (p : Params) {k : Nat} {s : State} {junk rest : List (List Byte)} {x : List Byte}
    (h : s.link.reads = junk ++ x :: rest) (hjunk : ∀ y ∈ junk, NoAnswer p y) (hk : junk.length ≤ k) :
    recvAck p (k + 1) s =
      if x.take 1 = [p.ackByte] then (.ack, s.afterAttempts (junk.length + 1) rest)
      else if x.take 1 = [p.nakByte] then (.nak, s.afterAttempts (junk.length + 1) rest)
      else recvAck p (k - junk.length) (s.afterAttempts (junk.length + 1) rest) := by
  rw [show k + 1 = junk.length + (k - junk.length + 1) by omega, recvAck_noAnswers p _ h hjunk, recvAck_cons p _ rfl,
    State.afterAttempts_add]

theorem recvAck_of_ack (p : Params) {k : Nat} {s : State} {junk rest : List (List Byte)} {x : List Byte}
    (h : s.link.reads = junk ++ x :: rest) (hjunk : ∀ y ∈ junk, NoAnswer p y) (hk : junk.length ≤ k)
    (hx : x.take 1 = [p.ackByte]) : recvAck p (k + 1) s = (.ack, s.afterAttempts (junk.length + 1) rest) := by
  rw [recvAck_noAnswers_cons p h hjunk hk, if_pos hx]

theorem recvAck_of_nak (p : Params) (hne : p.ackByte ≠ p.nakByte) {k : Nat} {s : State} {junk rest : List (List Byte)}
    {x : List Byte} (h : s.link.reads = junk ++ x :: rest) (hjunk : ∀ y ∈ junk, NoAnswer p y) (hk : junk.length ≤ k)
    (hx : x.take 1 = [p.nakByte]) : recvAck p (k + 1) s = (.nak, s.afterAttempts (junk.length + 1) rest) := by
  have hack : x.take 1 ≠ [p.ackByte] := fun h => hne (List.cons.inj (h.symm.trans hx)).1
  rw [recvAck_noAnswers_cons p h hjunk hk, if_neg hack, if_pos hx]

/-- Failing answers to all attempts are a timeout. -/
theorem recvAck_of_noAnswers (p : Params) {s : State} {junk rest : List (List Byte)} (h : s.link.reads = junk ++ rest)
    (hjunk : ∀ y ∈ junk, NoAnswer p y) :
    recvAck p junk.length s = (.timeout, s.afterAttempts junk.length rest) :=
  recvAck_noAnswers p 0 h hjunk

/-! ### What CRC32.DEV makes of the answer to its command -/

theorem awaitAnswer_of_timeout {p : Params} {s t : State} (h : recvAck p (p.crcAckRetries + 1) s = (.timeout, t)) :
    awaitAnswer p s = ackTimeout t := by
  simp only [awaitAnswer, h]

theorem awaitAnswer_of_nak {p : Params} {s t : State} (h : recvAck p (p.crcAckRetries + 1) s = (.nak, t)) :
    awaitAnswer p s = deviceNak t := by
  simp only [awaitAnswer, h]

theorem awaitAnswer_of_ack {p : Params} {s t : State} (h : recvAck p (p.crcAckRetries + 1) s = (.ack, t)) :
    awaitAnswer p s = receiveReply p (enterData t) := by
  simp only [awaitAnswer, h]

/-- Settles O42: the three answers of `RecvAck`, and the timeout of a CRC32.DEV that meets six failing answers. -/
theorem recvAckBudget : Obligations.RecvAckBudget := by
  refine ⟨fun p k s junk rest x hne h hjunk hk t ht => ?attempts, rfl,
    fun start count s junk rest ha hw h hlen hjunk => ?timeout⟩
  case attempts =>
    subst ht
    refine ⟨recvAck_of_ack p h hjunk hk, recvAck_of_nak p hne h hjunk hk, fun hx hlen => ?_⟩
    have hall : ∀ y ∈ junk ++ [x], NoAnswer p y :=
      List.forall_mem_append.mpr ⟨hjunk, List.forall_mem_singleton.mpr hx⟩
    have htimeout := recvAck_of_noAnswers p (rest := rest) (h.trans (List.append_cons junk x rest)) hall
    subst hlen
    rwa [List.length_append] at htimeout
  case timeout =>
    have htimeout := recvAck_of_noAnswers Config.params (s := (sendCommand Config.params start count s).2) h hjunk
    rw [hlen] at htimeout
    refine ⟨_, exec_crc32Dev_of_admitted ha, ?_⟩
    rw [exchange_of_accepted hw, awaitAnswer_of_timeout htimeout, ackTimeout, failExchange_eq rfl, ← hw]
    exact ⟨rfl, rfl, rfl, rfl, rfl⟩

/-- Settles O43: the NAK is taken within the six attempts, and `deviceNak` writes nothing. -/
theorem deviceNakEndsExchange : Obligations.DeviceNakEndsExchange := by
  refine ⟨ackByte_ne_nakByte, fun start count s junk rest x ha hw h hlen hjunk hx => ?_⟩
  have hnak := recvAck_of_nak Config.params ackByte_ne_nakByte (s := (sendCommand Config.params start count s).2) h hjunk
    hlen hx
  refine ⟨_, exec_crc32Dev_of_admitted ha, ?_⟩
  rw [exchange_of_accepted hw, awaitAnswer_of_nak hnak, deviceNak, failExchange_eq rfl, ← hw]
  exact ⟨rfl, rfl, rfl, rfl, rfl⟩

/-! ### A whole reply -/

/-- `RecvExact(n)` over answers that bring exactly `n` bytes, within the budget: what it answers and the state it leaves. Of the
answers only empty ones at the end stay unread. -/
theorem recvExact_whole (p : Params) (n : Nat) (s : State) (xs rest : List (List Byte))
    (hreads : s.link.reads = xs ++ rest) (hlen : xs.flatten.length = n)
    (hbudget : s.seq.attempts + xs.count [] ≤ p.crcDataRetries) :
    ∃ ys zs u, xs = ys ++ zs ∧ zs.flatten = [] ∧ recvExact p n s = (some xs.flatten, u) ∧
      u.seq.attempts = s.seq.attempts + ys.count [] ∧ u.seq.rx = s.seq.rx ++ xs.flatten ∧
      u.link.reads = zs ++ rest ∧ u.link.sent = s.link.sent ∧ u.link.writes = s.link.writes := by
  obtain ⟨ys, zs, hxs, hzs, hsome, hattempts, hleft⟩ := recvExact_script p n s xs rest hreads hlen hbudget
  obtain ⟨-, -, -, -, hsent, hwrites, -, -, ⟨data, hdata, -, -, hrx, -⟩ | ⟨hnone, -⟩⟩ := recvExact_spec p n s (by omega)
  · obtain rfl : data = xs.flatten := Option.some.inj (hdata.symm.trans hsome)
    exact ⟨ys, zs, _, hxs, hzs, Prod.ext hsome rfl, hattempts, hrx, hleft, hsent, hwrites⟩
  · rw [hsome] at hnone
    cases hnone

/-- Step 5 on answers that bring a header and the data that it announces: the reply is judged, with nothing written yet. -/
theorem receiveReply_whole (p : Params) (s : State) {rlen rcks : Byte} {data : List Byte} {hdr dat rest : List (List Byte)}
    (hreads : s.link.reads = hdr ++ (dat ++ rest)) (hhdr : hdr.flatten = [rlen, rcks]) (hdat : dat.flatten = data)
    (hrlen : rlen.toNat = 2 + data.length) (hbudget : s.seq.attempts + (hdr ++ dat).count [] ≤ p.crcDataRetries) :
    ∃ u, receiveReply p s = judgeReply p rcks data u ∧ u.seq.rx = s.seq.rx ++ rlen :: rcks :: data ∧
      u.link.sent = s.link.sent ∧ u.link.writes = s.link.writes := by
  rw [List.count_append] at hbudget
  obtain ⟨ys, zs, u, rfl, hzs, hheader, hattempts, hrx, hleft, hsent, hwrites⟩ :=
    recvExact_whole p 2 s hdr (dat ++ rest) hreads (by rw [hhdr]; rfl) (by omega)
  have hbytes : (zs ++ dat).flatten = data := by rw [List.flatten_append, hzs, hdat, List.nil_append]
  rw [List.count_append] at hbudget
  obtain ⟨-, -, v, -, -, hbody, -, hrx', -, hsent', hwrites'⟩ :=
    recvExact_whole p (rlen.toNat - 2) u (zs ++ dat) rest (by rw [hleft, List.append_assoc]) (by rw [hbytes]; omega)
      (by rw [List.count_append]; omega)
  refine ⟨v, ?_, ?_, hsent'.trans hsent, hwrites'.trans hwrites⟩
  · have htwo : ¬ rlen.toNat < 2 := by omega
    rw [hhdr] at hheader
    rw [hbytes] at hbody
    simp only [receiveReply, hheader, receiveData, List.getD_cons_zero, List.getD_cons_succ, if_neg htwo, hbody]
  · rw [hrx', hrx, hhdr, hbytes, List.append_assoc]
    rfl

/-- Step 6 or a NAK: the one write of the judging. -/
theorem judgeReply_link (p : Params) (rcks : Byte) (data : List Byte) (s : State) : (judgeReply p rcks data s).link =
    (txWrite [if dsum data = rcks ∧ data.length = p.crcReplyLen then p.ackByte else p.nakByte] s).2.link := by
  simp only [judgeReply, ite_not]
  split
  next hsum =>
    split
    next hlen =>
      rw [if_pos ⟨hsum, hlen⟩, acceptReply]
      split <;> rfl
    next hlen => rw [if_neg (fun h => hlen h.2)]; rfl
  next hsum => rw [if_neg (fun h => hsum h.1)]; rfl

/-- The outcome of the judging: the check byte, the length, the host's ACK, in this order. -/
theorem judgeReply_result (p : Params) (rcks : Byte) (data : List Byte) (s : State) : (judgeReply p rcks data s).result =
    some (if dsum data ≠ rcks then .err ⟨.checkMismatch, .replyBytes s.seq.rx⟩
      else if data.length ≠ p.crcReplyLen then .err ⟨.notFourBytes, .replyBytes s.seq.rx⟩
      else if s.link.nextAccept then .ok (.u32 (fromBe32 data))
      else .err ⟨.ackWrite, .none⟩) := by
  have hack : (txWrite [p.ackByte] s).1 = s.link.nextAccept := rfl
  simp only [judgeReply, acceptReply, hack]
  split_ifs <;> rfl

/-- An exchange whose command is taken, and acknowledged after some empty reads: step 5 begins. -/
theorem exchange_of_ack {p : Params} {start count : Word} {s : State} {empties : Nat} {rest : List (List Byte)}
    (hw : s.link.nextAccept = true) (hreads : s.link.reads = List.replicate empties [] ++ [p.ackByte] :: rest)
    (hempties : empties ≤ p.crcAckRetries) :
    ∃ t, exchange p start count s = receiveReply p t ∧ t.seq.attempts = 0 ∧ t.seq.rx = [] ∧ t.link.reads = rest ∧
      t.link.sent = s.link.sent ++ [⟨crc32Packet p start count, true⟩] ∧ t.link.writes = s.link.writes.tail := by
  have hjunk : ∀ y ∈ List.replicate empties ([] : List Byte), NoAnswer p y := fun y hy => by
    rw [List.eq_of_mem_replicate hy]
    exact ⟨by simp, by simp⟩
  have hack := recvAck_of_ack p (s := (sendCommand p start count s).2) hreads hjunk
    (List.length_replicate.trans_le hempties) rfl
  exact ⟨_, by rw [exchange_of_accepted hw, awaitAnswer_of_ack hack], rfl, rfl, rfl, by rw [← hw]; rfl, rfl⟩

/-- An exchange whose command is taken, acknowledged and answered by a whole reply: the reply is judged, with nothing written
but the command. -/
theorem exchange_whole {p : Params} {start count : Word} {s : State} {rlen rcks : Byte} {data : List Byte}
    (hw : s.link.nextAccept = true) (hrlen : rlen.toNat = 2 + data.length)
    (hspells : SpellsReply p (rlen :: rcks :: data) s.link.reads) :
    ∃ u, exchange p start count s = judgeReply p rcks data u ∧ u.seq.rx = rlen :: rcks :: data ∧
      u.link.sent = s.link.sent ++ [⟨crc32Packet p start count, true⟩] ∧ u.link.writes = s.link.writes.tail := by
  obtain ⟨empties, hdr, dat, rest, hreads, hempties, hhdr, hdat, hbudget⟩ := hspells
  obtain ⟨t, hstep5, hattempts, hrx, hleft, hsent, hwrites⟩ := exchange_of_ack (start := start) (count := count)
    (rest := hdr ++ (dat ++ rest)) hw (by simp [hreads]) hempties
  obtain ⟨u, hjudge, hrx', hsent', hwrites'⟩ :=
    receiveReply_whole p t hleft hhdr hdat hrlen (by rwa [hattempts, Nat.zero_add])
  exact ⟨u, hstep5.trans hjudge, by rw [hrx', hrx]; rfl, hsent'.trans hsent, hwrites'.trans hwrites⟩

/-- Settles O44: the judging of the reply, with the outcome of the second write taken from the script. -/
theorem wholeReplyJudged : Obligations.WholeReplyJudged := by
  refine ⟨rfl, rfl, rfl, fun start count s rlen rcks data b ws ha hwrites hrlen hspells => ?_⟩
  have hw : s.link.nextAccept = true := by rw [Link.nextAccept, hwrites]; rfl
  obtain ⟨u, hjudge, hrx, hsent, hleft⟩ := exchange_whole (start := start) (count := count) hw hrlen hspells
  obtain ⟨-, hseq, -⟩ := judgeReply_spec Config.params rcks data u
  rw [hwrites, List.tail_cons] at hleft
  have hb : u.link.nextAccept = b := by rw [Link.nextAccept, hleft]; rfl
  refine ⟨_, exec_crc32Dev_of_admitted ha, ?_⟩
  rw [hjudge, judgeReply_link, judgeReply_result, hseq, txWrite_scripted _ _ b ws hleft, hrx, hb, State.setLink_link, hsent,
    List.append_assoc]
  exact ⟨rfl, rfl, rfl, rfl, rfl⟩

end Sys2Proof.Machine
end

section
/-! VERIFY over CRC32.DEV, and a device that conforms (42_crc32_command.md R137 to R140). -/

namespace Sys2Proof.Machine

/-! ### VERIFY -/

/-- Between exchanges VERIFY is taken from the queue and run. -/
theorem step_of_verify {s : State} {img : List Byte} {start : Word} {rest : List HostInput} (h : s.seq.phase = .done)
    (hp : s.pending = .verify img start :: rest) : step s = .next (verify Config.params img start (s.setPending rest)) := by
  simp only [step, h, fetch, hp, applyInput]

/-- VERIFY of an image whose length a u32 counts is CRC32.DEV over that length with its outcome compared. -/
theorem verify_eq_crc32Dev (p : Params) {img : List Byte} (start : Word) (s : State) (h : img.length < 2 ^ 32) :
    verify p img start s =
      { crc32Dev p start (BitVec.ofNat 32 img.length) s with
        result := (crc32Dev p start (BitVec.ofNat 32 img.length) s).result.map (verdictOf p img) } := by
  have hcount : (BitVec.ofNat 32 img.length).toNat = img.length := Nat.mod_eq_of_lt h
  cases hp : precheck p s.session start.toNat img.length with
  | some e => rw [verify, hp, crc32Dev_of_precheck (by rw [hcount]; exact hp)]
  | none => rw [verify, hp, crc32Dev_of_precheck_none (by rw [hcount]; exact hp)]

/-- An equal CRC is a pass. -/
theorem verdictOf_crc32 (p : Params) (img : List Byte) :
    verdictOf p img (.ok (.u32 (crc32 p img))) = .ok (.verdict .pass) := by
  simp only [verdictOf, if_true]

/-- Settles O52: VERIFY as a CRC32.DEV, which keeps the block. -/
theorem verifyComparesCrcs : Obligations.VerifyComparesCrcs := by
  intro img start s t rest hdone hp hlen h
  obtain rfl := Host.Outcome.next.inj h
  obtain ⟨⟨hacc, hchk, -, -, hpending, -⟩, -⟩ :=
    crc32Dev_keeps Config.params start (BitVec.ofNat 32 img.length) (s.setPending rest)
  refine ⟨_, step_of_verify hdone hp, ?_⟩
  rw [verify_eq_crc32Dev _ start _ hlen]
  exact ⟨hacc, hchk, rfl, hpending, fun e he => congrArg (Option.map (verdictOf Config.params img)) he,
    fun c hc => congrArg (Option.map (verdictOf Config.params img)) hc⟩

/-! ### A conforming device -/

/-- With a conforming device an exchange returns the CRC-32 of what device memory holds in the range, unless the host's ACK is
not taken. -/
theorem exchange_conforming {start count : Word} {s : State} (h : DeviceConforms Config.params start count s) :
    ∃ b, (exchange Config.params start count s).result = some (if b then
        .ok (.u32 (crc32 Config.params (s.dmem.readRange start.toNat count.toNat))) else .err ⟨.ackWrite, .none⟩) ∧
      ∀ ws, s.link.writes = true :: true :: ws → b = true := by
  obtain ⟨hwrite, hspells⟩ := h
  have hw : s.link.nextAccept = true := by
    rw [Link.nextAccept, List.headD_eq_head?_getD, hwrite]
    rfl
  obtain ⟨u, hjudge, -, -, hwrites⟩ := exchange_whole (start := start) (count := count) (rlen := 6) hw rfl hspells
  refine ⟨u.link.nextAccept, ?_, fun ws hws => ?_⟩
  · have hfour : ∀ c, (be32 c).length = Config.params.crcReplyLen := length_be32
    rw [hjudge, judgeReply_result, if_neg (not_not.mpr rfl), if_neg (not_not.mpr (hfour _)), fromBe32_be32]
  · rw [Link.nextAccept, hwrites, hws]
    rfl

/-- Two images of equal length with the same CRC-32: their second to fifth bytes take back what the first byte did. -/
theorem crc32_collision : ∃ a b : List Byte, a ≠ b ∧ a.length = b.length ∧ crc32 Config.params a = crc32 Config.params b :=
  ⟨[0x00, 0x72, 0x10, 0xFD, 0x2D], [0x01, 0xE4, 0x20, 0xFA, 0x5A], by decide, rfl, by decide +kernel⟩

/-- Settles O53: an error of step 1 or 2, or the outcome of the exchange with the conforming device, whose value is the CRC of
the image; and the two images with one CRC-32. -/
theorem verifyPassesOnEqualContents : Obligations.VerifyPassesOnEqualContents := by
  refine ⟨fun img start s rest hdone hp hlen hconf himg => ⟨_, step_of_verify hdone hp, ?_⟩, crc32_collision⟩
  rw [verify_eq_crc32Dev _ start _ hlen]
  by_cases ha : Admitted start (BitVec.ofNat 32 img.length) s
  · have hcount : (BitVec.ofNat 32 img.length).toNat = img.length := Nat.mod_eq_of_lt hlen
    obtain ⟨b, hresult, hb⟩ := exchange_conforming (s := s.setPending rest) hconf
    rw [State.setPending_dmem, hcount, himg] at hresult
    rw [crc32Dev_of_precheck_none ((precheck_eq_none_iff start _ (s.setPending rest)).mpr ha), hresult]
    cases b with
    | true =>
      have hpass := congrArg some (verdictOf_crc32 Config.params img)
      exact ⟨.inl hpass, fun _ _ _ => hpass⟩
    | false => exact ⟨.inr ⟨_, rfl⟩, fun ws _ hws => absurd (hb ws hws) (by decide)⟩
  · obtain ⟨e, he⟩ := precheck_of_not_admitted ha
    rw [crc32Dev_of_precheck (s := s.setPending rest) he]
    exact ⟨.inr ⟨e, rfl⟩, fun ws hadm => absurd hadm ha⟩

end Sys2Proof.Machine
end

section
/-! A session start and the device's reset (70_reset_and_hazards.md R170, R171). -/

namespace Sys2Proof.Machine

/-! ### One input, one step -/

/-- Between exchanges an input that is no operation takes effect in the state without it. -/
theorem step_of_input {s : State} {x : HostInput} {rest : List HostInput} (h : s.seq.phase = .done)
    (hp : s.pending = x :: rest) (hx : ∀ y, x ≠ .issue y) :
    step s = applyInput Config.params x (s.setPending rest) := by
  cases x with
  | issue y => exact absurd rfl (hx y)
  | verify | session | deviceWrite | sessionStart => simp only [step, h, fetch, hp]

/-- The session input `linkActive` changes that field only. -/
theorem step_of_linkActive {s : State} {b : Bool} {rest : List HostInput} (h : s.seq.phase = .done)
    (hp : s.pending = .session (.linkActive b) :: rest) :
    step s = .next { s with session := { s.session with linkActive := b }, pending := rest } :=
  step_of_input h hp nofun

/-! ### CRC32.DEV without the link -/

/-- The decoder reads the CRC32 packet back (30_encoding.md R64, R67). -/
@[simp] theorem decode_crc32Packet (start count : Word) :
    decode (.packet (crc32Packet Config.params start count)) = .instr (.crc32Dev start count) := by
  have hfields : decode (.packet (crc32Packet Config.params start count)) =
      .instr (.crc32Dev (fromBe32 (be32 start)) (fromBe32 (be32 count))) := rfl
  rw [hfields, fromBe32_be32, fromBe32_be32]

/-- With the transport open and the link not active, CRC32.DEV ends at step 1 (42_crc32_command.md R122). -/
theorem precheck_of_linkNotActive {x : Session} (hport : x.portOpen = true) (hlink : x.linkActive = false)
    (start count : Word) : precheck Config.params x start.toNat count.toNat = some ⟨.linkNotActive, .none⟩ := by
  rw [precheck_params, if_neg (by rw [hport]; decide), if_pos hlink]

theorem Seq.setPhase_self {q : Seq} {x : Phase} (h : q.phase = x) : { q with phase := x } = q := by
  subst h
  rfl

/-- Between exchanges, a CRC32 packet with the transport open and the link not active changes the result only. -/
theorem step_crc32Packet_of_linkNotActive {start count : Word} {s : State} {rest : List HostInput}
    (h : s.seq.phase = .done) (hp : s.pending = .issue (.packet (crc32Packet Config.params start count)) :: rest)
    (hport : s.session.portOpen = true) (hlink : s.session.linkActive = false) :
    step s = .next { s with pending := rest, result := some (.err ⟨.linkNotActive, .none⟩) } := by
  have hpre : precheck Config.params (s.setPending rest).session start.toNat count.toNat = some ⟨.linkNotActive, .none⟩ :=
    precheck_of_linkNotActive hport hlink start count
  rw [step_of_instr h hp (decode_crc32Packet start count), exec_crc32Dev_of_precheck hpre, State.setPending_seq,
    Seq.setPhase_self h]
  rfl

/-! ### The obligations -/

/-- Settles O4: a session start is a step to `State.reset` with the transport, device memory and the queue kept. -/
theorem sessionStartResetsBlock : Obligations.SessionStartResetsBlock :=
  ⟨⟨rfl, rfl, rfl, rfl⟩, fun _ _ hdone hp => ⟨_, step_of_input hdone hp nofun, rfl, rfl, rfl, rfl⟩⟩

/-- Settles O55: the step that drops the link, then the CRC32.DEV that step 1 turns away. -/
theorem deviceResetDropsLink : Obligations.DeviceResetDropsLink := by
  intro start count s rest hdone hport hp
  rw [run_succ_of_next 1 (step_of_linkActive hdone hp)]
  exact run_succ_of_next 0 (step_crc32Packet_of_linkNotActive hdone rfl hport rfl)

end Sys2Proof.Machine
end

section
/-! Decoder against encoder, the cutting of a stream into packets, and what is handed over but is no instruction
(30_encoding.md R61 to R72). -/

namespace Sys2Proof.Machine

/-! ### Decoding an encoding -/

theorem decodePort_cons {w : PortWord} {ws : List PortWord} (h : ws ≠ []) :
    decodePort (w :: ws) = decodeExpansion w ws := by
  cases ws with
  | nil => exact absurd rfl h
  | cons v ws => rfl

@[simp] theorem decode_expandCrc32 (bytes : List Byte) :
    decode (.port (expandCrc32 bytes)) = .instr (.crc32Pseudo bytes) := by
  rw [decode, expandCrc32, decodePort_cons (by simp), decodeExpansion, if_pos rfl, takeOperands_map]

@[simp] theorem decode_expandChecksum (opc : Byte) (bytes : List Byte) :
    decode (.port (expandChecksum opc bytes)) = .instr (.checksumPseudo opc bytes) := by
  have hoperands := takeOperands_map 0x12 (portWord 0x13 0) (opc :: bytes)
  rw [List.map_cons, List.cons_append] at hoperands
  rw [decode, expandChecksum, decodePort_cons (by simp), decodeExpansion, if_neg (by decide), if_pos rfl, hoperands]

/-- Settles O9: the rows of the port words, the CRC32 packet, the two expansions, and the packets of the other commands, which
the decoder tells apart by the opcode byte alone. -/
theorem decodeEncodeAgree : Obligations.DecodeEncodeAgree := by
  intro i
  cases i with
  | crcInit => exact decodePortWord_crcInit
  | crcByte d => exact decodePortWord_crcByte d
  | crcRead => exact decodePortWord_crcRead
  | chkInit => exact decodePortWord_chkInit
  | chkByte d => exact decodePortWord_chkByte d
  | chkRead => exact decodePortWord_chkRead
  | crc32Dev start count => exact decode_crc32Packet start count
  | crc32Pseudo bytes => exact decode_expandCrc32 bytes
  | checksumPseudo opc bytes => exact decode_expandChecksum opc bytes
  | wirePing | wireDownload | wireGetStatus | wireSendData | wireReset | wireSectorErase | wireGetChipId
  | wireMemoryRead | wireMemoryWrite | wireBankErase | wireSetCcfg => rfl

/-- Every assigned port word is the encoding of an instruction. -/
theorem AssignedPortWord.encodes {w : PortWord} (h : AssignedPortWord w) : ∃ i, encode i = .port [w] := by
  obtain rfl | rfl | rfl | rfl | hop | hop := h
  · exact ⟨.crcInit, rfl⟩
  · exact ⟨.crcRead, rfl⟩
  · exact ⟨.chkInit, rfl⟩
  · exact ⟨.chkRead, rfl⟩
  · exact ⟨.crcByte (byteField w), by rw [encode, ← (eq_portWord_iff w 0x02 _).mpr ⟨hop, rfl⟩]⟩
  · exact ⟨.chkByte (byteField w), by rw [encode, ← (eq_portWord_iff w 0x12 _).mpr ⟨hop, rfl⟩]⟩

/-- Settles O10: a word that decodes is an assigned one, so an encoding, and by O9 that of the instruction it decodes to. -/
theorem encodeDecodePortWord : Obligations.EncodeDecodePortWord := by
  intro w i h
  obtain ⟨j, hj⟩ := AssignedPortWord.encodes ((decodePortWord_instr_iff w).mp ⟨i, h⟩)
  have hdecode : decode (.port [w]) = .instr j := hj ▸ decodeEncodeAgree j
  obtain rfl : j = i := Decoded.instr.inj (hdecode.symm.trans h)
  exact hj

/-- Settles O8: the decoder run on each of the written words. -/
theorem writtenWordsDecode : Obligations.WrittenWordsDecode := by
  unfold Obligations.WrittenWordsDecode
  decide

/-! ### Cutting a stream into packets -/

section Stream

variable {len : Byte} {body : List Byte} (h : len.toNat = body.length + 1)

include h

/-- A packet whose length byte counts itself and the body is cut off where the body ends (30_encoding.md R67). -/
theorem splitPacket_append (rest : List Byte) : splitPacket (len :: body ++ rest) = some (len :: body, rest) := by
  have hlen : len.toNat - 1 = body.length := by omega
  rw [List.cons_append, splitPacket, hlen, if_pos (by rw [List.length_append]; omega), List.take_left, List.drop_left]

/-- While bytes of a packet are missing, nothing is cut off. -/
theorem splitPacket_take {k : Nat} (hk : k < (len :: body).length) : splitPacket ((len :: body).take k) = none := by
  cases k with
  | zero => rfl
  | succ k =>
    rw [List.length_cons] at hk
    rw [List.take_succ_cons, splitPacket, if_neg (by rw [List.length_take]; omega)]

end Stream

/-- Settles O15: the length byte of a command packet counts the packet, so the cut is at its end and not before. -/
theorem streamSplitsAtPacketEnd : Obligations.StreamSplitsAtPacketEnd := by
  intro opc payload rest h
  have hlen : (BitVec.ofNat 8 (3 + payload.length)).toNat = (checksum opc payload :: opc :: payload).length + 1 := by
    rw [BitVec.toNat_ofNat, List.length_cons, List.length_cons]
    omega
  exact ⟨splitPacket_append hlen rest, fun k hk => splitPacket_take hlen hk⟩

/-! ### Packets and groups that are no operation -/

/-- A packet with opcode 0x27, as the model reads it (entry 15). -/
theorem decode_packet_crc32 (len cks : Byte) (p : List Byte) :
    decode (.packet (len :: cks :: 0x27 :: p)) =
      if len = 0x0F ∧ p.length = 12 ∧ p.drop 8 = [0, 0, 0, 0] then
        .instr (.crc32Dev (fromBe32 (p.take 4)) (fromBe32 ((p.drop 4).take 4)))
      else .rejected .badCrc32Packet := by
  have hlen : len.toNat = 15 ↔ len = 0x0F := BitVec.toNat_inj (y := 0x0F)
  have hrepeat : be32 Config.params.crcRepeat = [0, 0, 0, 0] := by decide
  calc
    decode (.packet (len :: cks :: 0x27 :: p)) = decodeCrc32 len p := rfl
    _ = _ := by simp only [decodeCrc32, hlen, hrepeat]

/-- Settles O17: the decoder's row for 0x27, and what the step makes of its two answers. -/
theorem malformedCrc32PacketRefused : Obligations.MalformedCrc32PacketRefused := by
  intro s len cks p rest hdone hp
  have hstep := step_of_issue hdone hp
  rw [decode_packet_crc32] at hstep
  split
  next h => rw [hstep, if_pos h]; rfl
  next h => rw [hstep, if_neg h]; rfl

theorem decode_packet_of_length_lt {bytes : List Byte} (h : bytes.length < 3) :
    decode (.packet bytes) = .rejected .truncatedPacket := by
  match bytes, h with
  | [], _ => rfl
  | [_], _ => rfl
  | [_, _], _ => rfl

/-- A group of several port words is rejected or is the expansion of a pseudo-instruction (30_encoding.md R72). -/
theorem decodeExpansion_cases (first : PortWord) (rest : List PortWord) :
    decodeExpansion first rest = .rejected .notOneOperation ∨ (∃ bytes, first :: rest = expandCrc32 bytes) ∨
      ∃ opc bytes, first :: rest = expandChecksum opc bytes := by
  simp only [decodeExpansion]
  split
  next hfirst =>
    cases hops : takeOperands 0x02 (portWord 0x03 0) rest with
    | none => exact .inl rfl
    | some bytes =>
      exact .inr (.inl ⟨bytes, by rw [hfirst, takeOperands_sound _ _ _ _ hops]; rfl⟩)
  next =>
    split
    next hfirst =>
      match hops : takeOperands 0x12 (portWord 0x13 0) rest with
      | none => exact .inl rfl
      | some [] => exact .inl rfl
      | some (opc :: bytes) =>
        exact .inr (.inr ⟨opc, bytes, by rw [hfirst, takeOperands_sound _ _ _ _ hops]; rfl⟩)
    next => exact .inl rfl

/-- A group that is neither one word nor an expansion is no operation (entry 16). -/
theorem decode_port_of_no_expansion {words : List PortWord} (hone : words.length ≠ 1)
    (hcrc : ∀ bytes, words ≠ expandCrc32 bytes) (hsum : ∀ opc bytes, words ≠ expandChecksum opc bytes) :
    decode (.port words) = .rejected .notOneOperation := by
  match words with
  | [] => rfl
  | [_] => exact absurd rfl hone
  | w :: v :: ws =>
    obtain h | ⟨bytes, h⟩ | ⟨opc, bytes, h⟩ := decodeExpansion_cases w (v :: ws)
    · exact h
    · exact absurd h (hcrc bytes)
    · exact absurd h (hsum opc bytes)

/-- Settles O60: what the decoder answers to such packets and groups, which the step then refuses. -/
theorem otherOperationsRefused : Obligations.OtherOperationsRefused := by
  refine ⟨fun s bytes rest hlen hdone hp => ?packet, fun s words rest hone hcrc hsum hdone hp => ?group⟩
  case packet =>
    rw [step_of_issue hdone hp, decode_packet_of_length_lt hlen]
    rfl
  case group =>
    rw [step_of_issue hdone hp, decode_port_of_no_expansion hone hcrc hsum]
    rfl

/-! ### Taking an operation -/

/-- Between exchanges, with nothing issued, the block waits (entry 2). -/
theorem step_of_idle {s : State} (h : s.seq.phase = .done) (hp : s.pending = []) : step s = .next s := by
  simp only [step, h, fetch, hp]

/-- Settles O6: the three arms of the step. -/
theorem stepRunsTheDecodedInstruction : Obligations.StepRunsTheDecodedInstruction :=
  ⟨fun _ _ _ _ hdone hp hd => step_of_instr hdone hp hd, fun _ hdone hp => step_of_idle hdone hp,
    fun _ h => step_of_awaiting h⟩

theorem decode_of_decodeTableWord {nbits w : Nat} {i : Instr} (h : decodeTableWord nbits w = some i) :
    decode (tableIssue nbits w) = .instr i := by
  simp only [decodeTableWord] at h
  split at h
  next j hj => rw [hj, Option.some.inj h]
  next => cases h

/-- Settles O7: the word placed is the oldest input, and taking it gives the state it was placed into. -/
theorem placedTableWordRunsNext : Obligations.PlacedTableWordRunsNext := by
  intro s nbits w i hdone h
  have hback : (s.withFetchWord nbits w).setPending s.pending = s := by
    calc
      (s.withFetchWord nbits w).setPending s.pending = { s with seq := { s.seq with phase := .done } } := rfl
      _ = s := by rw [Seq.setPhase_self hdone]
  rw [step_of_instr (s := s.withFetchWord nbits w) rfl rfl (decode_of_decodeTableWord h), hback]

/-! ### The assembler -/

/-- Settles O18: the assembler run on each of the lines. -/
theorem assemblerLines : Obligations.AssemblerLines := by
  unfold Obligations.AssemblerLines
  decide +kernel

end Sys2Proof.Machine
end

section
/-! What a step can do to the session, device memory, the queue and the fault log, case by case (10_state.md R24, R26,
20_memory.md R48, 60_exceptions.md R151, 70_reset_and_hazards.md R170), and the invariant that follows. -/

namespace Sys2Proof.Machine

/-! ### What an operation keeps -/

/-- What every operation of the opcode table keeps: the session, device memory and the rest of the queue; no exchange is left
open, and the fault log gains port faults only (60_exceptions.md R151). -/
structure OperationFrame (s t : State) : Prop where
  session : t.session = s.session
  dmem : t.dmem = s.dmem
  pending : t.pending = s.pending
  phase : s.seq.phase = .done → t.seq.phase = .done
  log : ∃ es, t.faultLog = s.faultLog ++ es ∧ ∀ e ∈ es, e.isPortFault = true

theorem OperationFrame.trans {s t u : State} (h : OperationFrame s t) (k : OperationFrame t u) : OperationFrame s u := by
  obtain ⟨es, hes, hfault⟩ := h.log
  obtain ⟨fs, hfs, hfault'⟩ := k.log
  exact ⟨k.session.trans h.session, k.dmem.trans h.dmem, k.pending.trans h.pending, fun hdone => k.phase (h.phase hdone),
    es ++ fs, by rw [hfs, hes, List.append_assoc], List.forall_mem_append.mpr ⟨hfault, hfault'⟩⟩

theorem operationFrame_of_keepsBlock {s t : State} (h : KeepsBlock s t) (hphase : t.seq.phase = .done) :
    OperationFrame s t := by
  obtain ⟨-, -, hsession, hdmem, hpending, hlog⟩ := h
  exact ⟨hsession, hdmem, hpending, fun _ => hphase, [], by rw [hlog, List.append_nil], by simp⟩

theorem operationFrame_setAcc_ret (s : State) (a : Word) (v : Value) : OperationFrame s ((s.setAcc a).ret v) :=
  ⟨rfl, rfl, rfl, id, [], (List.append_nil _).symm, by simp⟩

theorem operationFrame_setChk_ret (s : State) (c : Byte) (v : Value) : OperationFrame s ((s.setChk c).ret v) :=
  ⟨rfl, rfl, rfl, id, [], (List.append_nil _).symm, by simp⟩

theorem operationFrame_ret (s : State) (v : Value) : OperationFrame s (s.ret v) :=
  ⟨rfl, rfl, rfl, id, [], (List.append_nil _).symm, by simp⟩

theorem operationFrame_raise (s : State) {e : ErrInfo} (h : e.isPortFault = true) : OperationFrame s (s.raise e) :=
  ⟨rfl, rfl, rfl, id, [e], by rw [State.raise_faultLog, if_pos h], List.forall_mem_singleton.mpr h⟩

/-! ### Each operation -/

theorem crcByte_frame (p : Params) (d : Byte) (s : State) : OperationFrame s (crcByte p d s) := by
  cases hs : s.acc with
  | unset => rw [crcByte_of_unset p d hs]; exact operationFrame_raise s rfl
  | val a => rw [crcByte_of_val p d hs]; exact operationFrame_setAcc_ret s _ _

theorem crcRead_frame (p : Params) (s : State) : OperationFrame s (crcRead p s) := by
  cases hs : s.acc with
  | unset => rw [crcRead_of_unset p hs]; exact operationFrame_raise s rfl
  | val a => rw [crcRead_of_val p hs]; exact operationFrame_ret s _

theorem chkByte_frame (d : Byte) (s : State) : OperationFrame s (chkByte d s) := by
  cases hs : s.chk with
  | unset => rw [chkByte_of_unset d hs]; exact operationFrame_raise s rfl
  | val c => rw [chkByte_of_val d hs]; exact operationFrame_setChk_ret s _ _

theorem chkRead_frame (s : State) : OperationFrame s (chkRead s) := by
  cases hs : s.chk with
  | unset => rw [chkRead_of_unset hs]; exact operationFrame_raise s rfl
  | val c => rw [chkRead_of_val hs]; exact operationFrame_ret s _

/-- Every instruction that answers a next state keeps what an operation keeps; the pseudo-instructions by their whole effect
(O25, O32). -/
theorem exec_frame {i : Instr} {s t : State} (h : exec i s = .next t) : OperationFrame s t := by
  cases i with
  | crcInit => cases h; exact operationFrame_setAcc_ret s _ _
  | crcByte d => cases h; exact crcByte_frame _ d s
  | crcRead => cases h; exact crcRead_frame _ s
  | chkInit => cases h; exact operationFrame_setChk_ret s _ _
  | chkByte d => cases h; exact chkByte_frame d s
  | chkRead => cases h; exact chkRead_frame s
  | crc32Dev start count =>
    cases h
    obtain ⟨hkeeps, hphase⟩ := crc32Dev_keeps Config.params start count s
    exact operationFrame_of_keepsBlock hkeeps hphase
  | crc32Pseudo bytes =>
    obtain ⟨hresult, -⟩ := crc32PseudoResult
    rw [hresult] at h
    cases h
    exact operationFrame_setAcc_ret s _ _
  | checksumPseudo opc bytes =>
    rw [exec_checksumPseudo_eq] at h
    cases h
    exact operationFrame_setChk_ret s _ _
  | wirePing | wireDownload | wireGetStatus | wireSendData | wireReset | wireSectorErase | wireGetChipId
  | wireMemoryRead | wireMemoryWrite | wireBankErase | wireSetCcfg => cases h

/-- VERIFY keeps what CRC32.DEV keeps (42_crc32_command.md R139). -/
theorem verify_frame (p : Params) (img : List Byte) (start : Word) (s : State) :
    OperationFrame s (verify p img start s) := by
  have hresult : ∀ {t : State} (r : Option OpResult), OperationFrame s t → OperationFrame s { t with result := r } :=
    fun _ h => ⟨h.session, h.dmem, h.pending, h.phase, h.log⟩
  simp only [verify]
  cases hp : precheck p s.session start.toNat img.length with
  | some e =>
    obtain ⟨hkeeps, hseq, -⟩ := failExchange_spec e s (isPortFault_of_precheck hp)
    exact hresult _ (operationFrame_of_keepsBlock hkeeps (by rw [hseq]))
  | none =>
    obtain ⟨hkeeps, hphase, -⟩ := exchange_spec p start (BitVec.ofNat 32 img.length) s
    exact hresult _ (operationFrame_of_keepsBlock hkeeps hphase)

/-! ### A tick of the sequencer -/

theorem tickAck_keeps (p : Params) (s : State) : KeepsBlock s (tickAck p s) := by
  have hread : KeepsBlock s (txRead 1 s.countAttempt).2 := (readsOnly_countAttempt s).1.trans (keepsBlock_txRead 1 _)
  simp only [tickAck]
  split
  next => exact hread.trans (keepsBlock_setSeq _ _)
  next =>
    split
    next => exact hread.trans (failExchange_spec _ _ rfl).1
    next =>
      split
      next => exact hread.trans (failExchange_spec _ _ rfl).1
      next => exact hread

theorem collected_keeps (p : Params) (s : State) : KeepsBlock s (collected p s) := by
  have hkeep : KeepsBlock s s.keepOut := keepsBlock_setSeq s _
  have hout : KeepsBlock s (s.keepOut.setOut []) := hkeep.trans (keepsBlock_setSeq _ _)
  simp only [collected]
  split
  next =>
    split
    next => exact hkeep.trans (nakFail_spec p _ _ rfl).1
    next =>
      split
      next => exact hout.trans (judgeReply_spec p _ _ _).1
      next => exact hout
  next => exact hkeep.trans (judgeReply_spec p _ _ _).1

theorem tickData_keeps (p : Params) (s : State) : KeepsBlock s (tickData p s) := by
  have hread := keepsBlock_txRead (wanted s - s.seq.out.length) s
  simp only [tickData]
  split
  next =>
    have hcount := hread.trans (readsOnly_countAttempt _).1
    split
    next => exact hcount.trans (nakFail_spec p _ _ (by split <;> rfl)).1
    next => exact hcount
  next =>
    have hout := fun v => hread.trans (readsOnly_setOut _ v).1
    split
    next => exact (hout _).trans (collected_keeps p _)
    next => exact hout _

theorem tick_keeps (p : Params) (s : State) : KeepsBlock s (tick p s) := by
  cases hsub : s.seq.sub with
  | ack => simp only [tick, hsub]; exact tickAck_keeps p s
  | data => simp only [tick, hsub]; exact tickData_keeps p s

/-! ### A session input -/

/-- The flash size in the machine's parameters: the low byte of the word read, in pages of 4096 bytes (10_state.md R26). -/
theorem flashSizeOf_params (v : Word) : flashSizeOf Config.params v = v.toNat % 256 * 4096 := by
  simp only [flashSizeOf, BitVec.extractLsb'_toNat, Nat.shiftRight_zero]
  rfl

theorem ramSize_fits_iff (n : Nat) : Config.params.ramBase + n ≤ 2 ^ 32 ↔ n ≤ 0xE0000000 := by
  have hbase : Config.params.ramBase = 0x20000000 := rfl
  rw [hbase]
  omega

/-- A session input that is taken replaces the session fields, by others that a session can hold. -/
theorem applySession_spec {e : SessionEvent} {s t : State} (h : applySession Config.params e s = .next t) :
    ∃ x, t = s.setSession x ∧ (SessionOk s.session → SessionOk x) := by
  cases e with
  | portOpen b => cases h; exact ⟨_, rfl, id⟩
  | linkActive b => cases h; exact ⟨_, rfl, id⟩
  | revision r => cases h; exact ⟨_, rfl, id⟩
  | flashSizeWord v =>
    cases h
    refine ⟨_, rfl, fun ⟨_, _, hram⟩ => ⟨?_, ?_, hram⟩⟩
    · show flashSizeOf Config.params v % 4096 = 0
      rw [flashSizeOf_params, Nat.mul_mod_left]
    · show flashSizeOf Config.params v ≤ 0xFF000
      rw [flashSizeOf_params]
      omega
  | ramSize n =>
    simp only [applySession] at h
    split at h
    next hfits =>
      cases h
      exact ⟨_, rfl, fun ⟨hpage, hflash, _⟩ => ⟨hpage, hflash, hfits⟩⟩
    next => cases h

/-! ### A step -/

/-- What a step that answers `t` has done, and what input it has taken. -/
inductive StepEffect (s t : State) : Prop
  | tick (hphase : s.seq.phase = .awaitingResponse) (h : KeepsBlock s t)
  | idle (hphase : s.seq.phase = .done) (hp : s.pending = []) (h : t = s)
  | operation (x : HostInput) (rest : List HostInput) (hphase : s.seq.phase = .done) (hp : s.pending = x :: rest)
      (h : OperationFrame (s.setPending rest) t)
  | session (e : SessionEvent) (rest : List HostInput) (x : Session) (hphase : s.seq.phase = .done)
      (hp : s.pending = .session e :: rest) (hx : SessionOk s.session → SessionOk x)
      (h : t = (s.setPending rest).setSession x)
  | deviceWrite (start : Word) (data : List Byte) (rest : List HostInput) (hphase : s.seq.phase = .done)
      (hp : s.pending = .deviceWrite start data :: rest) (hin : start.toNat + data.length ≤ 2 ^ 32)
      (h : t = (s.setPending rest).setDmem (s.dmem.writeBytes start.toNat data))
  | sessionStart (rest : List HostInput) (hphase : s.seq.phase = .done) (hp : s.pending = .sessionStart :: rest)
      (h : t = startSession (s.setPending rest))

theorem step_effect {s t : State} (h : step s = .next t) : StepEffect s t := by
  obtain ⟨hphase, rfl⟩ | ⟨hphase, hp, rfl⟩ | ⟨hphase, x, i, rest, hp, -, hexec⟩ | ⟨hphase, x, w, rest, hp, -, rfl⟩ |
    ⟨hphase, x, rest, hp, hx, hinput⟩ := step_cases h
  · exact .tick hphase (tick_keeps _ s)
  · exact .idle hphase hp rfl
  · exact .operation _ rest hphase hp (exec_frame hexec)
  · exact .operation _ rest hphase hp (operationFrame_raise _ rfl)
  · cases x with
    | issue y => exact absurd rfl (hx y)
    | verify img start => cases hinput; exact .operation _ rest hphase hp (verify_frame _ img start _)
    | session e =>
      obtain ⟨x, ht, hok⟩ := applySession_spec hinput
      exact .session e rest x hphase hp hok ht
    | deviceWrite start data =>
      simp only [applyInput, applyDeviceWrite] at hinput
      split at hinput
      next hin => cases hinput; exact .deviceWrite start data rest hphase hp hin rfl
      next => cases hinput
    | sessionStart => cases hinput; exact .sessionStart rest hphase hp rfl

/-! ### The fault log -/

theorem code_of_isPortFault {e : ErrInfo} (h : e.isPortFault = true) : e.code = 6 ∨ e.code = 7 := by
  simpa [ErrInfo.isPortFault] using h

/-- Settles O37: only an operation adds to the log, and only a session start clears it. -/
theorem faultLogOnlyGrows : Obligations.FaultLogOnlyGrows := by
  intro s t hstep
  have hsame : t.faultLog = s.faultLog → ∃ es, t.faultLog = s.faultLog ++ es ∧ ∀ e ∈ es, e.code = 6 ∨ e.code = 7 :=
    fun h => ⟨[], by rw [h, List.append_nil], by simp⟩
  cases step_effect hstep with
  | tick _ h =>
    obtain ⟨-, -, -, -, -, hlog⟩ := h
    exact .inl (hsame hlog)
  | idle _ _ h => exact .inl (hsame (by rw [h]))
  | operation _ _ _ _ h =>
    obtain ⟨es, hlog, hfault⟩ := h.log
    exact .inl ⟨es, hlog, fun e he => code_of_isPortFault (hfault e he)⟩
  | session _ _ _ _ _ _ h => exact .inl (hsame (by rw [h]; rfl))
  | deviceWrite _ _ _ _ _ _ h => exact .inl (hsame (by rw [h]; rfl))
  | sessionStart rest hphase hp h => exact .inr ⟨hphase, ⟨rest, hp⟩, by rw [h]; rfl⟩

/-! ### The invariant -/

theorem sessionOk_reset : SessionOk Session.reset := by
  refine ⟨rfl, Nat.zero_le _, (ramSize_fits_iff 0).mpr (Nat.zero_le _)⟩

/-- Settles O58: the values of the reset, one for each part of the invariant. -/
theorem invariantAtReset : Obligations.InvariantAtReset :=
  ⟨rfl, Memory.reset_wf, sessionOk_reset, nofun⟩

/-- Settles O59: each part of the invariant over each of the things that a step can do. -/
theorem stepKeepsInvariant : Obligations.StepKeepsInvariant := by
  intro s t ⟨hdone, hwf, hsession, hlog⟩ hstep
  cases step_effect hstep with
  | tick hphase _ => rw [hdone] at hphase; cases hphase
  | idle _ _ h => rw [h]; exact ⟨hdone, hwf, hsession, hlog⟩
  | operation x rest _ _ h =>
    obtain ⟨es, hes, hfault⟩ := h.log
    refine ⟨h.phase hdone, by rw [h.dmem]; exact hwf, by rw [h.session]; exact hsession, ?_⟩
    rw [hes]
    exact List.forall_mem_append.mpr ⟨hlog, hfault⟩
  | session e rest x _ _ hx h => rw [h]; exact ⟨hdone, hwf, hx hsession, hlog⟩
  | deviceWrite start data rest _ _ hin h =>
    rw [h]
    exact ⟨hdone, Memory.writeBytes_wf s.dmem start.toNat data hin hwf, hsession, hlog⟩
  | sessionStart rest _ _ h => rw [h]; exact ⟨rfl, hwf, sessionOk_reset, nofun⟩

end Sys2Proof.Machine
end

section
/-! Statements about values: the reset, the error kinds, the port faults, the CRC vectors, reordered payloads
(10_state.md section 6, 60_exceptions.md section 1, 95_test_vectors.md sections 2.1 and 2.2). -/

namespace Sys2Proof.Machine

/-- Settles O5: the fields of `State.reset`, and the step that starts a session. -/
theorem resetValuesChosen : Obligations.ResetValuesChosen :=
  ⟨rfl, rfl, rfl, rfl, rfl, rfl, rfl, rfl, rfl, fun _ _ hdone hp => step_of_input hdone hp nofun⟩

theorem ErrKind.code_injective : Function.Injective ErrKind.code := by
  intro k l h
  cases k <;> cases l <;> cases h <;> rfl

/-- Settles O35: the table of the codes, which are distinct, and that of the reasons. -/
theorem errorKindsAndCodes : Obligations.ErrorKindsAndCodes :=
  ⟨rfl, ErrKind.code_injective, fun r => by cases r <;> decide, by decide, by decide, by decide, by decide, by decide,
    by decide⟩

/-- Settles O36: the four operations on an unset register, and the reserved word, each with the fault that it logs. -/
theorem portFaultsCarryOn : Obligations.PortFaultsCarryOn := by
  refine ⟨fun d s hu => ?crcByte, fun s hu => ?crcRead, fun d s hu => ?chkByte, fun s hu => ?chkRead,
    fun s w rest hw hdone hp => ?reserved⟩
  case crcByte =>
    rw [exec_crcByte, crcByte_of_unset _ d hu]
    exact congrArg _ (State.raise_portFault s _ rfl)
  case crcRead =>
    rw [exec_crcRead, crcRead_of_unset _ hu]
    exact congrArg _ (State.raise_portFault s _ rfl)
  case chkByte =>
    rw [exec_chkByte, chkByte_of_unset d hu]
    exact congrArg _ (State.raise_portFault s _ rfl)
  case chkRead =>
    rw [exec_chkRead, chkRead_of_unset hu]
    exact congrArg _ (State.raise_portFault s _ rfl)
  case reserved =>
    rw [step_of_issue hdone hp, decode_port_singleton, decodePortWord_of_not_assigned hw]
    exact congrArg _ (State.raise_portFault (s.setPending rest) _ rfl)

/-- Settles O21: the datapath run on each of the vectors. -/
theorem crcVectors : Obligations.CrcVectors := by
  unfold Obligations.CrcVectors
  decide +kernel

/-- Settles O34: the sum of a permuted payload, and the CRCs of the two orders of two bytes. -/
theorem checksumMissesReordering : Obligations.ChecksumMissesReordering :=
  ⟨fun opc _ _ h => foldl_add_perm h opc, by decide +kernel⟩

end Sys2Proof.Machine
end

section
/-! Inputs of other layers: the session fields and device memory (10_state.md R26, 20_memory.md R48), and the image that VERIFY
refuses by its length (42_crc32_command.md R124, R139). -/

namespace Sys2Proof.Machine

/-! ### Session fields -/

/-- Settles O56: each session input taken as the oldest one, and the bound on the RAM size. -/
theorem sessionInputsSetFields : Obligations.SessionInputsSetFields := by
  intro s rest hdone
  refine ⟨fun b hp => ?portOpen, fun b hp => step_of_linkActive hdone hp, fun v hp => ?flashSize, fun n hn hp => ?ramSize,
    fun n hn hp => ?ramOutside, fun r hp => ?revision⟩
  case portOpen => exact step_of_input hdone hp nofun
  case revision => exact step_of_input hdone hp nofun
  case flashSize =>
    rw [step_of_input hdone hp nofun, ← flashSizeOf_params]
    rfl
  case ramSize =>
    rw [step_of_input hdone hp nofun]
    exact if_pos ((ramSize_fits_iff n).mpr hn)
  case ramOutside =>
    rw [step_of_input hdone hp nofun]
    exact if_neg fun hfits => Nat.not_le_of_lt hn ((ramSize_fits_iff n).mp hfits)

/-! ### Device memory -/

theorem Memory.getElem_readRange (m : Memory) (a n i : Nat) (h : i < (m.readRange a n).length) :
    (m.readRange a n)[i] = m.read (a + i) := by
  induction n generalizing a i with
  | zero => simp [Memory.readRange] at h
  | succ n ih =>
    cases i with
    | zero => rfl
    | succ i =>
      simp only [Memory.readRange, List.getElem_cons_succ]
      rw [ih, Nat.add_right_comm, Nat.add_assoc]

/-- A byte written reads back (20_memory.md R48). -/
theorem Memory.read_writeBytes_inside {m : Memory} (hm : m.Rising) (a : Nat) {vs : List Byte} {i : Nat}
    (hi : i < vs.length) : (m.writeBytes a vs).read (a + i) = vs[i] := by
  have hrange := Memory.readRange_writeBytes m a vs hm
  calc
    (m.writeBytes a vs).read (a + i) = ((m.writeBytes a vs).readRange a vs.length)[i]'(by simpa using hi) :=
      (Memory.getElem_readRange _ a _ i _).symm
    _ = vs[i] := by simp only [hrange]

/-- A part of the bytes written reads back. -/
theorem Memory.readRange_writeBytes_part {m : Memory} (hm : m.Rising) (a : Nat) {vs : List Byte} {i n : Nat}
    (h : i + n ≤ vs.length) : (m.writeBytes a vs).readRange (a + i) n = (vs.drop i).take n := by
  apply List.ext_getElem
  · rw [Memory.length_readRange, List.length_take, List.length_drop]
    omega
  · intro k hk _
    rw [Memory.length_readRange] at hk
    rw [Memory.getElem_readRange, Nat.add_assoc, Memory.read_writeBytes_inside hm a (by omega), List.getElem_take,
      List.getElem_drop]

/-- Between exchanges the bytes that another layer left are taken into device memory, where there is such memory. -/
theorem step_of_deviceWrite {s : State} {start : Word} {data : List Byte} {rest : List HostInput} (h : s.seq.phase = .done)
    (hp : s.pending = .deviceWrite start data :: rest) : step s =
      if start.toNat + data.length ≤ 2 ^ 32 then
        .next { s with pending := rest, dmem := s.dmem.writeBytes start.toNat data }
      else .fault (.deviceAddressOutside start.toNat data.length) :=
  step_of_input h hp nofun

/-- Settles O57: the step that takes the bytes in, and the effects of all other steps. -/
theorem deviceWritesReadBack : Obligations.DeviceWritesReadBack := by
  refine ⟨fun s start data rest hdone hwf hp => ?write, fun s t hstep => ?other⟩
  case write =>
    have hrising := Memory.rising_of_wf s.dmem hwf
    have hstep := step_of_deviceWrite hdone hp
    split_ifs at hstep ⊢ with hin
    · exact ⟨_, hstep, rfl, fun i hi => Memory.read_writeBytes_inside hrising _ hi,
        fun a ha => Memory.read_writeBytes_outside _ _ _ a ha, Memory.readRange_writeBytes _ _ _ hrising⟩
    · exact hstep
  case other =>
    cases step_effect hstep with
    | tick _ h =>
      obtain ⟨-, -, -, hdmem, -, -⟩ := h
      exact .inl hdmem
    | idle _ _ h => exact .inl (by rw [h])
    | operation _ _ _ _ h => exact .inl h.dmem
    | session _ _ _ _ _ _ h => exact .inl (by rw [h]; rfl)
    | deviceWrite start data rest hphase hp _ _ => exact .inr ⟨hphase, start, data, rest, hp⟩
    | sessionStart _ _ _ h => exact .inl (by rw [h]; rfl)

/-! ### VERIFY of a long image -/

/-- A range that passes the 32-bit address space, or that is longer than it, is in neither region that a session can hold. -/
theorem precheck_of_past_end {x : Session} {start : Word} {count : Nat} (hport : x.portOpen = true)
    (hlink : x.linkActive = true) (hx : SessionOk x) (h : 2 ^ 32 < start.toNat + count ∨ 2 ^ 32 ≤ count) :
    precheck Config.params x start.toNat count = some ⟨.rangeOutside, .range start.toNat count⟩ := by
  have hstart : start.toNat < 2 ^ 32 := start.isLt
  obtain ⟨-, hflash, hram⟩ := hx
  have hflash : x.flashSize ≤ 0xFF000 := hflash
  have hram : 0x20000000 + x.ramSize ≤ 2 ^ 32 := hram
  have hnotFlash : inFlash Config.params x start.toNat count = false := by
    rw [Bool.eq_false_iff, ne_eq, inFlash_params_iff]
    omega
  have hnotRam : inRam Config.params x start.toNat count = false := by
    rw [Bool.eq_false_iff, ne_eq, inRam_params_iff]
    omega
  have hcount : count ≠ 0 := by omega
  simp only [precheck, hport, hlink, hnotFlash, hnotRam, if_neg hcount]
  rfl

/-- Settles O54: the range error, raised on the length itself, which VERIFY passes on. -/
theorem verifyRefusesOversizedImage : Obligations.VerifyRefusesOversizedImage := by
  intro img start s rest hdone hp hlong hport hlink hsession
  have hpre := precheck_of_past_end (x := (s.setPending rest).session) hport hlink hsession hlong
  rw [step_of_verify hdone hp, verify, hpre]
  simp only [failExchange_eq (e := ⟨.rangeOutside, .range start.toNat img.length⟩) rfl, State.setPending_seq,
    Seq.setPhase_self hdone]
  rfl

end Sys2Proof.Machine
end

section
/-! Replies that are cut off, and the number of reads of an exchange (42_crc32_command.md R130, R131, 70_reset_and_hazards.md
R177). -/

namespace Sys2Proof.Machine

/-! ### Broken replies -/

/-- `RecvExact(n)` over answers too short, the last of them the empty read that passes the budget: it answers `short`, with
nothing received and nothing written. -/
theorem recvExact_cut (p : Params) (n : Nat) (s : State) (xs rest : List (List Byte))
    (hreads : s.link.reads = xs ++ rest) (hlen : xs.flatten.length < n)
    (hbudget : s.seq.attempts + xs.count [] = p.crcDataRetries + 1) (hlast : xs.getLast? = some []) :
    ∃ u, recvExact p n s = (none, u) ∧ u.seq.rx = s.seq.rx ∧ u.link.sent = s.link.sent ∧
      u.link.writes = s.link.writes := by
  have hempty : 0 < xs.count [] := List.count_pos_iff.mpr (List.mem_of_getLast? hlast)
  obtain ⟨hnone, -⟩ := recvExact_short p n s xs rest hreads hlen hbudget hlast
  obtain ⟨-, -, -, -, hsent, hwrites, -, -, ⟨data, hdata, -⟩ | ⟨-, -, hrx, -⟩⟩ := recvExact_spec p n s (by omega)
  · rw [hnone] at hdata
    cases hdata
  · exact ⟨_, Prod.ext hnone rfl, hrx, hsent, hwrites⟩

/-- Step 5 from `s` on ends in the host's NAK for this reason, with these reply bytes received and nothing else written. -/
def NakedFor (p : Params) (why : Reason) (rx : List Byte) (s : State) : Prop :=
  ∃ u, receiveReply p s = nakFail p why u ∧ u.seq.rx = s.seq.rx ++ rx ∧ u.link.sent = s.link.sent ∧
    u.link.writes = s.link.writes

theorem nakedFor_shortHeader (p : Params) {s : State} {hdr rest : List (List Byte)} (hreads : s.link.reads = hdr ++ rest)
    (hlen : hdr.flatten.length < 2) (hbudget : s.seq.attempts + hdr.count [] = p.crcDataRetries + 1)
    (hlast : hdr.getLast? = some []) : NakedFor p .shortHeader [] s := by
  obtain ⟨u, hheader, hrx, hsent, hwrites⟩ := recvExact_cut p 2 s hdr rest hreads hlen hbudget hlast
  exact ⟨u, by simp only [receiveReply, hheader], by rw [hrx, List.append_nil], hsent, hwrites⟩

theorem nakedFor_lengthBelowTwo (p : Params) {s : State} {hdr rest : List (List Byte)} {rlen rcks : Byte}
    (hreads : s.link.reads = hdr ++ rest) (hhdr : hdr.flatten = [rlen, rcks])
    (hbudget : s.seq.attempts + hdr.count [] ≤ p.crcDataRetries) (hrlen : rlen.toNat < 2) :
    NakedFor p .lengthBelowTwo [rlen, rcks] s := by
  obtain ⟨-, -, u, -, -, hheader, -, hrx, -, hsent, hwrites⟩ :=
    recvExact_whole p 2 s hdr rest hreads (by rw [hhdr]; rfl) hbudget
  rw [hhdr] at hheader hrx
  exact ⟨u, by simp only [receiveReply, hheader, receiveData, List.getD_cons_zero, if_pos hrlen], hrx, hsent, hwrites⟩

theorem nakedFor_shortData (p : Params) {s : State} {hdr dat rest : List (List Byte)} {rlen rcks : Byte}
    (hreads : s.link.reads = hdr ++ (dat ++ rest)) (hhdr : hdr.flatten = [rlen, rcks])
    (hlen : dat.flatten.length < rlen.toNat - 2)
    (hbudget : s.seq.attempts + (hdr ++ dat).count [] = p.crcDataRetries + 1) (hlast : dat.getLast? = some []) :
    NakedFor p .shortData [rlen, rcks] s := by
  have hempty : 0 < dat.count [] := List.count_pos_iff.mpr (List.mem_of_getLast? hlast)
  rw [List.count_append] at hbudget
  obtain ⟨ys, zs, u, rfl, hzs, hheader, hattempts, hrx, hleft, hsent, hwrites⟩ :=
    recvExact_whole p 2 s hdr (dat ++ rest) hreads (by rw [hhdr]; rfl) (by omega)
  rw [List.count_append] at hbudget
  obtain ⟨v, hbody, hrx', hsent', hwrites'⟩ := recvExact_cut p (rlen.toNat - 2) u (zs ++ dat) rest
    (by rw [hleft, List.append_assoc]) (by rwa [List.flatten_append, hzs, List.nil_append])
    (by rw [List.count_append]; omega) (by rw [List.getLast?_append, hlast]; rfl)
  have htwo : ¬ rlen.toNat < 2 := by omega
  rw [hhdr] at hheader hrx
  refine ⟨v, ?_, hrx'.trans hrx, hsent'.trans hsent, hwrites'.trans hwrites⟩
  simp only [receiveReply, hheader, receiveData, List.getD_cons_zero, if_neg htwo, hbody]

/-- Settles O45: each of the three cut-off replies after the device's ACK, and the one write of `NakFail`. -/
theorem brokenRepliesNaked : Obligations.BrokenRepliesNaked := by
  intro start count s empties hdr dat rest rlen rcks b ws why rx ha hwrites hempties hreads hbroken
  have hw : s.link.nextAccept = true := by rw [Link.nextAccept, hwrites]; rfl
  obtain ⟨t, hstep5, hattempts, hrx, hleft, hsent, hnext⟩ := exchange_of_ack (p := Config.params) (start := start)
    (count := count) (rest := hdr ++ (dat ++ rest)) hw (by simp [hreads]) hempties
  have hnaked : why.kind = .protocolError ∧ NakedFor Config.params why rx t := by
    obtain ⟨hlen, hbudget, hlast, rfl, rfl⟩ | ⟨hhdr, hbudget, hrlen, rfl, rfl⟩ |
      ⟨hhdr, hlen, hbudget, hlast, rfl, rfl⟩ := hbroken
    · exact ⟨rfl, nakedFor_shortHeader _ hleft hlen (by rwa [hattempts, Nat.zero_add]) hlast⟩
    · exact ⟨rfl, nakedFor_lengthBelowTwo _ hleft hhdr (by rwa [hattempts, Nat.zero_add]) hrlen⟩
    · exact ⟨rfl, nakedFor_shortData _ hleft hhdr hlen (by rwa [hattempts, Nat.zero_add]) hlast⟩
  obtain ⟨hkind, u, hnak, hrx', hsent', hwrites'⟩ := hnaked
  obtain ⟨-, hseq, hlink, hresult⟩ := nakFail_spec Config.params why u hkind
  have hnak_write : u.link.writes = b :: ws := by rw [hwrites', hnext, hwrites, List.tail_cons]
  refine ⟨_, exec_crc32Dev_of_admitted ha, ?_⟩
  rw [hstep5, hnak, hseq, hlink, hresult, txWrite_scripted _ _ b ws hnak_write, State.setLink_link, hsent', hsent, hrx', hrx,
    List.append_assoc]
  exact ⟨rfl, rfl, hkind, rfl⟩

/-! ### The number of reads -/

@[simp] theorem nakFail_nReads (p : Params) (why : Reason) (s : State) :
    (nakFail p why s).link.nReads = s.link.nReads := rfl

@[simp] theorem failExchange_link (e : ErrInfo) (s : State) : (failExchange e s).link = s.link := rfl

@[simp] theorem judgeReply_nReads (p : Params) (rcks : Byte) (data : List Byte) (s : State) :
    (judgeReply p rcks data s).link.nReads = s.link.nReads := by
  rw [judgeReply_link]
  rfl

/-- The reads of `RecvExact` bring at least a byte each, or use up an attempt of the budget. -/
theorem recvExact_nReads (p : Params) (n : Nat) (s : State) (ha : s.seq.attempts ≤ p.crcDataRetries) :
    (recvExact p n s).2.link.nReads + s.seq.attempts ≤ s.link.nReads + n + (recvExact p n s).2.seq.attempts ∧
      (recvExact p n s).2.seq.attempts ≤ p.crcDataRetries + 1 := by
  obtain ⟨-, -, -, -, -, -, -, hreads, ⟨data, -, hlen, hout, -, hwithin⟩ | ⟨-, hlen, -, hspent⟩⟩ := recvExact_spec p n s ha
  · rw [hout] at hreads
    omega
  · omega

/-- After the header, at most one read for each of the 253 bytes that a length byte can announce and for each attempt left. -/
theorem receiveData_nReads (p : Params) (rlen rcks : Byte) (s : State) (ha : s.seq.attempts ≤ p.crcDataRetries) :
    (receiveData p rlen rcks s).link.nReads + s.seq.attempts ≤ s.link.nReads + 253 + (p.crcDataRetries + 1) := by
  have hrlen : rlen.toNat < 256 := rlen.isLt
  obtain ⟨hreads, hspent⟩ := recvExact_nReads p (rlen.toNat - 2) s ha
  simp only [receiveData]
  split
  next =>
    rw [nakFail_nReads]
    omega
  next =>
    split
    next =>
      rw [nakFail_nReads]
      omega
    next =>
      rw [judgeReply_nReads]
      omega

theorem receiveReply_nReads (p : Params) (s : State) (ha : s.seq.attempts ≤ p.crcDataRetries) :
    (receiveReply p s).link.nReads + s.seq.attempts ≤ s.link.nReads + 255 + (p.crcDataRetries + 1) := by
  obtain ⟨hreads, hspent⟩ := recvExact_nReads p 2 s ha
  obtain ⟨-, -, -, -, -, -, -, -, ⟨data, hdata, -, -, -, hwithin⟩ | ⟨hnone, -⟩⟩ := recvExact_spec p 2 s ha
  · have hbody := receiveData_nReads p (data.getD 0 0) (data.getD 1 0) (recvExact p 2 s).2 hwithin
    simp only [receiveReply, hdata]
    omega
  · simp only [receiveReply, hnone, nakFail_nReads]
    omega

theorem awaitAnswer_nReads (p : Params) (s : State) (ha : s.seq.attempts = 0) :
    (awaitAnswer p s).link.nReads ≤ s.link.nReads + (p.crcAckRetries + 1 + 255 + (p.crcDataRetries + 1)) := by
  obtain ⟨-, -, hattempts, hreads, -⟩ := recvAck_spec p (p.crcAckRetries + 1) s
  simp only [awaitAnswer]
  split
  next =>
    rw [ackTimeout, failExchange_link]
    omega
  next =>
    rw [deviceNak, failExchange_link]
    omega
  next =>
    have hreply := receiveReply_nReads p (enterData (recvAck p (p.crcAckRetries + 1) s).2) (Nat.zero_le _)
    have hsame : (enterData (recvAck p (p.crcAckRetries + 1) s).2).link = (recvAck p (p.crcAckRetries + 1) s).2.link := rfl
    rw [hsame] at hreply
    omega

/-- The bound of 70_reset_and_hazards.md R177 on the reads of one exchange. -/
theorem exchange_nReads (p : Params) (start count : Word) (s : State) :
    (exchange p start count s).link.nReads ≤ s.link.nReads + (p.crcAckRetries + 1 + 255 + (p.crcDataRetries + 1)) := by
  cases hw : s.link.nextAccept with
  | false =>
    rw [exchange_of_rejected hw]
    exact Nat.le_add_right _ _
  | true =>
    rw [exchange_of_accepted hw]
    exact awaitAnswer_nReads p (sendCommand p start count s).2 rfl

/-- Settles O49: an error of step 1 or 2 neither reads nor writes, and an exchange is bounded. -/
theorem exchangeIsBounded : Obligations.ExchangeIsBounded := by
  intro start count s
  by_cases ha : Admitted start count s
  · obtain ⟨-, hphase, more, hsent, hmore, -⟩ := exchange_spec Config.params start count s
    refine ⟨_, exec_crc32Dev_of_admitted ha, hphase, exchange_nReads Config.params start count s, ?_⟩
    rw [hsent, List.length_append, List.length_cons]
    omega
  · obtain ⟨e, he⟩ := precheck_of_not_admitted ha
    exact ⟨_, exec_crc32Dev_of_precheck he, rfl, Nat.le_add_right _ _, Nat.le_add_right _ _⟩

end Sys2Proof.Machine
end

section
/-! The sequencer one read at a time does what the pseudocode does at once (10_state.md R29, 42_crc32_command.md R121). -/

namespace Sys2Proof.Machine

/-! ### Ticks of an exchange -/

/-- One tick inside an exchange. -/
def Tick (p : Params) (s t : State) : Prop := s.seq.phase = .awaitingResponse ∧ t = tick p s

/-- Some number of ticks, the exchange in progress before each of them. -/
abbrev Ticks (p : Params) : State → State → Prop := Relation.ReflTransGen (Tick p)

theorem Ticks.of_tick {p : Params} {s t : State} (hphase : s.seq.phase = .awaitingResponse) (h : tick p s = t) :
    Ticks p s t := .single ⟨hphase, h.symm⟩

theorem Ticks.after_tick {p : Params} {s t u : State} (hphase : s.seq.phase = .awaitingResponse) (h : tick p s = t)
    (hticks : Ticks p t u) : Ticks p s u := .head ⟨hphase, h.symm⟩ hticks

theorem tick_of_ack (p : Params) {s : State} (h : s.seq.sub = .ack) : tick p s = tickAck p s := by
  simp only [tick, h]

theorem tick_of_data (p : Params) {s : State} (h : s.seq.sub = .data) : tick p s = tickData p s := by
  simp only [tick, h]

theorem collected_nReads (p : Params) (s : State) : (collected p s).link.nReads = s.link.nReads := by
  simp only [collected]
  split
  next =>
    split
    next => rfl
    next =>
      split
      next => exact judgeReply_nReads p _ _ _
      next => rfl
  next => exact judgeReply_nReads p _ _ _

/-- A read that brings nothing uses an attempt up. -/
theorem tickData_of_empty (p : Params) {s : State} (h : (txRead (wanted s - s.seq.out.length) s).1 = []) :
    tickData p s =
      if p.crcDataRetries < s.seq.attempts + 1 then
        nakFail p (if inHeader s then .shortHeader else .shortData)
          (txRead (wanted s - s.seq.out.length) s).2.countAttempt
      else (txRead (wanted s - s.seq.out.length) s).2.countAttempt :=
  if_pos h

/-- A read that brings bytes may complete what is collected. -/
theorem tickData_of_bytes (p : Params) {s : State} (h : (txRead (wanted s - s.seq.out.length) s).1 ≠ []) :
    tickData p s =
      if wanted s ≤ (s.seq.out ++ (txRead (wanted s - s.seq.out.length) s).1).length then
        collected p ((txRead (wanted s - s.seq.out.length) s).2.setOut
          (s.seq.out ++ (txRead (wanted s - s.seq.out.length) s).1))
      else (txRead (wanted s - s.seq.out.length) s).2.setOut
        (s.seq.out ++ (txRead (wanted s - s.seq.out.length) s).1) :=
  if_neg h

/-- Every tick makes one read (10_state.md R29). -/
theorem tick_nReads (p : Params) (s : State) : (tick p s).link.nReads = s.link.nReads + 1 := by
  cases hsub : s.seq.sub with
  | ack =>
    rw [tick_of_ack p hsub, tickAck]
    split_ifs <;> rfl
  | data =>
    rw [tick_of_data p hsub]
    by_cases hempty : (txRead (wanted s - s.seq.out.length) s).1 = []
    · rw [tickData_of_empty p hempty]
      split <;> rfl
    · rw [tickData_of_bytes p hempty]
      split
      next => exact collected_nReads p _
      next => rfl

/-- Ticks are steps of the machine, as many as the reads they make, and no input is taken on the way. -/
theorem Ticks.run {s t : State} (h : Ticks Config.params s t) :
    ∃ k, t.link.nReads = s.link.nReads + k ∧ Sys2Proof.core.run k s = .next t ∧
      ∀ j < k, ∃ u : State, Sys2Proof.core.run j s = .next u ∧ u.seq.phase = .awaitingResponse ∧
        u.pending = s.pending := by
  induction h using Relation.ReflTransGen.head_induction_on with
  | refl => exact ⟨0, rfl, rfl, nofun⟩
  | @head s u hfirst _ ih =>
    obtain ⟨hphase, rfl⟩ := hfirst
    obtain ⟨k, hreads, hrun, hway⟩ := ih
    obtain ⟨-, -, -, -, hpending, -⟩ := tick_keeps Config.params s
    have hstep := step_of_awaiting hphase
    refine ⟨k + 1, by rw [hreads, tick_nReads]; omega, by rw [run_succ_of_next k hstep, hrun], fun j hj => ?_⟩
    cases j with
    | zero => exact ⟨s, rfl, hphase, rfl⟩
    | succ j =>
      obtain ⟨u, hu, hawait, hqueue⟩ := hway j (Nat.lt_of_succ_lt_succ hj)
      exact ⟨u, by rw [run_succ_of_next j hstep, hu], hawait, hqueue.trans hpending⟩

/-! ### `RecvAck` -/

/-- What CRC32.DEV does next with the answer of `RecvAck`, up to the next read or the end (42_crc32_command.md R121 step 4). -/
def afterAnswer : AckAnswer × State → State
  | (.timeout, u) => ackTimeout u
  | (.nak, u) => deviceNak u
  | (.ack, u) => enterData u

/-- Ticks in `Ack` are the attempts of `RecvAck`, as long as the attempts counted and those left make up the budget. -/
theorem ticks_recvAck (p : Params) (n : Nat) {s : State} (hphase : s.seq.phase = .awaitingResponse)
    (hsub : s.seq.sub = .ack) (hbudget : s.seq.attempts + n = p.crcAckRetries) :
    Ticks p s (afterAnswer (recvAck p (n + 1) s)) := by
  induction n generalizing s with
  | zero =>
    refine .of_tick hphase ?_
    have hlast : p.crcAckRetries < (txRead 1 s.countAttempt).2.seq.attempts := by
      rw [← hbudget]
      exact Nat.lt_succ_self _
    simp only [tick_of_ack p hsub, tickAck, recvAck, if_pos hlast]
    split_ifs <;> rfl
  | succ n ih =>
    have hleft : ¬ p.crcAckRetries < (txRead 1 s.countAttempt).2.seq.attempts := by
      rw [← hbudget]
      exact Nat.not_lt.mpr (Nat.add_le_add_left (Nat.succ_pos n) _)
    have htick := tick_of_ack p hsub
    rw [recvAck]
    simp only [tickAck, if_neg hleft] at htick
    split_ifs at htick ⊢
    · exact .of_tick hphase htick
    · exact .of_tick hphase htick
    · refine .after_tick hphase htick (ih hphase hsub ?_)
      rw [← hbudget]
      exact (Nat.add_right_comm _ 1 n).trans (Nat.add_assoc _ n 1)

/-! ### `RecvExact` -/

/-- What the sequencer does next with the outcome of the loop of `RecvExact`, up to the next read or the end. -/
def afterLoop (p : Params) : Bool × State → State
  | (true, u) => collected p u
  | (false, u) => nakFail p (if inHeader u then .shortHeader else .shortData) u

theorem recvLoop_of_full (p : Params) {n : Nat} (fuel : Nat) {s : State} (h : n ≤ s.seq.out.length) :
    recvLoop p n fuel s = (true, s) := by
  cases fuel with
  | zero => rw [recvLoop, decide_eq_true h]
  | succ fuel => rw [recvLoop, if_pos h]

theorem recvLoop_of_empty (p : Params) {n : Nat} (fuel : Nat) {s : State} (hmissing : s.seq.out.length < n)
    (h : (txRead (n - s.seq.out.length) s).1 = []) : recvLoop p n (fuel + 1) s =
      if p.crcDataRetries < s.seq.attempts + 1 then (false, (txRead (n - s.seq.out.length) s).2.countAttempt)
      else recvLoop p n fuel (txRead (n - s.seq.out.length) s).2.countAttempt := by
  rw [recvLoop, if_neg (Nat.not_le.mpr hmissing)]
  exact if_pos h

theorem recvLoop_of_bytes (p : Params) {n : Nat} (fuel : Nat) {s : State} (hmissing : s.seq.out.length < n)
    (h : (txRead (n - s.seq.out.length) s).1 ≠ []) : recvLoop p n (fuel + 1) s =
      recvLoop p n fuel ((txRead (n - s.seq.out.length) s).2.setOut
        (s.seq.out ++ (txRead (n - s.seq.out.length) s).1)) := by
  rw [recvLoop, if_neg (Nat.not_le.mpr hmissing)]
  exact if_neg h

/-- Ticks in `Data` are the passes of the loop of `RecvExact`, with enough fuel. -/
theorem ticks_recvLoop (p : Params) (fuel : Nat) {s : State} (hphase : s.seq.phase = .awaitingResponse)
    (hsub : s.seq.sub = .data) (hmissing : s.seq.out.length < wanted s) (ha : s.seq.attempts ≤ p.crcDataRetries)
    (hfuel : p.crcDataRetries - s.seq.attempts + (wanted s - s.seq.out.length) < fuel) :
    Ticks p s (afterLoop p (recvLoop p (wanted s) fuel s)) := by
  induction fuel generalizing s with
  | zero => exact absurd hfuel (Nat.not_lt_zero _)
  | succ fuel ih =>
    have htick := tick_of_data p hsub
    by_cases hempty : (txRead (wanted s - s.seq.out.length) s).1 = []
    · rw [tickData_of_empty p hempty] at htick
      rw [recvLoop_of_empty p fuel hmissing hempty]
      by_cases hspent : p.crcDataRetries < s.seq.attempts + 1
      · rw [if_pos hspent] at htick ⊢
        exact .of_tick hphase htick
      · rw [if_neg hspent] at htick ⊢
        refine .after_tick hphase htick (ih hphase hsub hmissing (Nat.not_lt.mp hspent) ?_)
        show p.crcDataRetries - (s.seq.attempts + 1) + (wanted s - s.seq.out.length) < fuel
        omega
    · have hbytes := List.length_pos_iff.mpr hempty
      rw [tickData_of_bytes p hempty] at htick
      rw [recvLoop_of_bytes p fuel hmissing hempty]
      split_ifs at htick with hfull
      · rw [recvLoop_of_full p fuel hfull]
        exact .of_tick hphase htick
      · refine .after_tick hphase htick (ih hphase hsub (Nat.not_le.mp hfull) ha ?_)
        show p.crcDataRetries - s.seq.attempts +
          (wanted s - (s.seq.out ++ (txRead (wanted s - s.seq.out.length) s).1).length) < fuel
        rw [List.length_append]
        omega

/-- `RecvExact` from a state of the sequencer that waits for its bytes: what it answers, the state `u` in which its loop ended,
and the ticks that lead on from there. -/
theorem ticks_recvExact (p : Params) {s : State} (hphase : s.seq.phase = .awaitingResponse) (hsub : s.seq.sub = .data)
    (hwanted : 0 < wanted s) (ha : s.seq.attempts ≤ p.crcDataRetries) :
    ∃ u, ReadsOnly s u ∧
      ((recvExact p (wanted s) s = (some u.seq.out, u.keepOut) ∧ u.seq.out.length = wanted s ∧
          u.seq.attempts ≤ p.crcDataRetries ∧ Ticks p (s.setOut []) (collected p u)) ∨
        (recvExact p (wanted s) s = (none, u) ∧
          Ticks p (s.setOut []) (nakFail p (if inHeader u then .shortHeader else .shortData) u))) := by
  have hfuel : p.crcDataRetries - (s.setOut []).seq.attempts + (wanted s - (s.setOut []).seq.out.length) <
      p.crcDataRetries + 1 - s.seq.attempts + wanted s := by
    simp only [State.setOut_attempts, State.setOut_out, List.length_nil]
    omega
  have hticks := ticks_recvLoop p _ (s := s.setOut []) hphase hsub hwanted ha hfuel
  obtain ⟨hreads, -, -, hwhole, -⟩ := recvLoop_spec p (wanted s) _ (s.setOut []) (Nat.zero_le _) ha (.inr hfuel)
  have hexact : recvExact p (wanted s) s =
      if (recvLoop p (wanted s) (p.crcDataRetries + 1 - s.seq.attempts + wanted s) (s.setOut [])).1 then _ else _ := rfl
  have hsame : wanted (s.setOut []) = wanted s := rfl
  rw [hexact]
  rw [hsame] at hticks
  generalize recvLoop p (wanted s) (p.crcDataRetries + 1 - s.seq.attempts + wanted s) (s.setOut []) = r at *
  obtain ⟨_ | _, u⟩ := r
  · exact ⟨u, (readsOnly_setOut s []).trans hreads, .inr ⟨rfl, hticks⟩⟩
  · obtain ⟨hlen, hwithin⟩ := hwhole rfl
    exact ⟨u, (readsOnly_setOut s []).trans hreads, .inl ⟨rfl, hlen, hwithin, hticks⟩⟩

/-! ### Step 5 -/

theorem inHeader_of_nothing {s : State} (h : s.seq.rx = []) : inHeader s = true := by
  rw [inHeader, h]
  rfl

theorem inHeader_of_header {s : State} {rlen rcks : Byte} (h : s.seq.rx = [rlen, rcks]) : inHeader s = false := by
  rw [inHeader, h]
  rfl

theorem wanted_of_nothing {s : State} (h : s.seq.rx = []) : wanted s = 2 :=
  if_pos (inHeader_of_nothing h)

/-- With the header received, the sequencer collects the data that it announces. -/
theorem wanted_of_header {s : State} {rlen rcks : Byte} (h : s.seq.rx = [rlen, rcks]) : wanted s = rlen.toNat - 2 := by
  simp [wanted, inHeader_of_header h, h]

/-- The header is collected. -/
theorem collected_of_nothing (p : Params) {s : State} {rlen rcks : Byte} (hrx : s.seq.rx = [])
    (hout : s.seq.out = [rlen, rcks]) : collected p s =
      if rlen.toNat < 2 then nakFail p .lengthBelowTwo s.keepOut
      else if rlen.toNat = 2 then judgeReply p rcks [] (s.keepOut.setOut [])
      else s.keepOut.setOut [] := by
  simp [collected, inHeader_of_nothing hrx, hrx, hout]

/-- The data are collected. -/
theorem collected_of_header (p : Params) {s : State} {rlen rcks : Byte} (hrx : s.seq.rx = [rlen, rcks]) :
    collected p s = judgeReply p rcks s.seq.out s.keepOut := by
  simp [collected, inHeader_of_header hrx, hrx]

/-- `RecvExact(0)` reads nothing. -/
theorem recvExact_zero (p : Params) (s : State) : recvExact p 0 s = (some [], s.setOut []) := by
  have hkeep : (s.setOut []).keepOut = s.setOut [] := by simp [State.keepOut, State.setOut, State.setSeq]
  rw [recvExact, recvLoop_of_full p _ (Nat.zero_le _)]
  exact congrArg (some [], ·) hkeep

/-- From the header on. -/
theorem ticks_receiveData (p : Params) {s : State} {rlen rcks : Byte} (hphase : s.seq.phase = .awaitingResponse)
    (hsub : s.seq.sub = .data) (hrx : s.seq.rx = []) (hout : s.seq.out = [rlen, rcks])
    (ha : s.seq.attempts ≤ p.crcDataRetries) : Ticks p (collected p s) (receiveData p rlen rcks s.keepOut) := by
  have hheader : s.keepOut.seq.rx = [rlen, rcks] := by rw [State.keepOut_rx, hrx, hout, List.nil_append]
  rw [collected_of_nothing p hrx hout, receiveData]
  split_ifs with hshort htwo
  · exact .refl
  · rw [htwo, recvExact_zero]
  · have hwanted := wanted_of_header hheader
    obtain ⟨u, ⟨-, -, -, -, hrx', -⟩, ⟨hexact, -, -, hticks⟩ | ⟨hexact, hticks⟩⟩ :=
      ticks_recvExact p (s := s.keepOut) hphase hsub (by omega) ha
    · rw [hwanted] at hexact
      rw [collected_of_header p (hrx'.trans hheader)] at hticks
      rw [hexact]
      exact hticks
    · rw [hwanted] at hexact
      rw [inHeader_of_header (hrx'.trans hheader)] at hticks
      rw [hexact]
      exact hticks

theorem ticks_receiveReply (p : Params) {s : State} (hphase : s.seq.phase = .awaitingResponse) (hsub : s.seq.sub = .data)
    (ha : s.seq.attempts ≤ p.crcDataRetries) (hrx : s.seq.rx = []) (hout : s.seq.out = []) :
    Ticks p s (receiveReply p s) := by
  have hwanted := wanted_of_nothing hrx
  have hself : s.setOut [] = s := by rw [← hout]; rfl
  obtain ⟨u, ⟨-, -, hphase', hsub', hrx', -⟩, ⟨hexact, hlen, hwithin, hticks⟩ | ⟨hexact, hticks⟩⟩ :=
    ticks_recvExact p hphase hsub (by omega) ha
  · rw [hwanted] at hexact hlen
    obtain ⟨rlen, rcks, hbytes⟩ := List.length_eq_two.mp hlen
    rw [hself] at hticks
    rw [receiveReply, hexact, hbytes]
    exact hticks.trans
      (ticks_receiveData p (hphase'.trans hphase) (hsub'.trans hsub) (hrx'.trans hrx) hbytes hwithin)
  · rw [hwanted] at hexact
    rw [hself, inHeader_of_nothing (hrx'.trans hrx)] at hticks
    rw [receiveReply, hexact]
    exact hticks

/-! ### The whole exchange -/

/-- From the state after the command was accepted, ticks lead to the end of the exchange. -/
theorem ticks_awaitAnswer (p : Params) {s : State} (hphase : s.seq.phase = .awaitingResponse) (hsub : s.seq.sub = .ack)
    (hattempts : s.seq.attempts = 0) (hrx : s.seq.rx = []) : Ticks p s (awaitAnswer p s) := by
  have hticks := ticks_recvAck p p.crcAckRetries hphase hsub (by rw [hattempts, Nat.zero_add])
  obtain ⟨⟨-, -, hphase', -, hrx', -⟩, -⟩ := recvAck_spec p (p.crcAckRetries + 1) s
  rw [awaitAnswer]
  generalize recvAck p (p.crcAckRetries + 1) s = a at *
  obtain ⟨_ | _ | _, u⟩ := a
  case timeout => exact hticks
  case nak => exact hticks
  case ack =>
    exact hticks.trans
      (ticks_receiveReply p (s := enterData u) (hphase'.trans hphase) rfl (Nat.zero_le _) (hrx'.trans hrx) rfl)

/-- Settles O50: the ticks of an exchange as steps of the machine, as many as its reads, which O49 bounds. -/
theorem sequencerRefinesExchange : Obligations.SequencerRefinesExchange := by
  intro start count s ha hw
  have hticks := ticks_awaitAnswer Config.params (s := (sendCommand Config.params start count s).2) rfl rfl rfl rfl
  rw [← exchange_of_accepted hw] at hticks
  obtain ⟨k, hreads, hrun, hway⟩ := hticks.run
  have hbound := exchange_nReads Config.params start count s
  have hsame : (sendCommand Config.params start count s).2.link.nReads = s.link.nReads := rfl
  have hretries : Config.params.crcAckRetries = 5 := rfl
  exact ⟨k, _, by omega, exec_crc32Dev_of_admitted ha, hrun, hway⟩

end Sys2Proof.Machine
end

section
/-! A conforming device, and the commands of other layers that completed before (42_crc32_command.md R137, 20_memory.md R48,
70_reset_and_hazards.md R175). -/

namespace Sys2Proof.Machine

/-- Between exchanges, a step with an input takes that input and opens no exchange. -/
theorem step_takes_input {s t : State} {x : HostInput} {rest : List HostInput} (hdone : s.seq.phase = .done)
    (hp : s.pending = x :: rest) (hstep : step s = .next t) : t.seq.phase = .done ∧ t.pending = rest := by
  have htail : ∀ {y : HostInput} {rest' : List HostInput}, s.pending = y :: rest' → rest' = rest := fun hq =>
    (List.cons.inj (hq.symm.trans hp)).2
  cases step_effect hstep with
  | tick hphase _ => rw [hdone] at hphase; cases hphase
  | idle _ hq _ => rw [hp] at hq; cases hq
  | operation _ _ _ hq h => exact ⟨h.phase hdone, h.pending.trans (htail hq)⟩
  | session _ _ _ _ hq _ h => rw [h]; exact ⟨hdone, htail hq⟩
  | deviceWrite _ _ _ _ hq _ h => rw [h]; exact ⟨hdone, htail hq⟩
  | sessionStart _ _ hq h => rw [h]; exact ⟨rfl, htail hq⟩

/-- A step that takes another input than bytes of device memory leaves device memory (O57). -/
theorem step_keeps_dmem {s t : State} {x : HostInput} {rest : List HostInput} (hp : s.pending = x :: rest)
    (hx : ∀ a bytes, x ≠ .deviceWrite a bytes) (hstep : step s = .next t) : t.dmem = s.dmem := by
  obtain ⟨-, hother⟩ := deviceWritesReadBack
  obtain h | ⟨-, a, bytes, rest', hq⟩ := hother s t hstep
  · exact h
  · exact absurd (List.cons.inj (hp.symm.trans hq)).1 (hx a bytes)

/-- A run of one more step begins with a step. -/
theorem run_succ_cases {k : Nat} {s u : State} (h : Sys2Proof.core.run (k + 1) s = .next u) :
    ∃ t, step s = .next t ∧ Sys2Proof.core.run k t = .next u := by
  cases hstep : step s with
  | next t => exact ⟨t, rfl, (run_succ_of_next k hstep).symm.trans h⟩
  | fault r =>
    have hcore : Sys2Proof.core.step s = .fault r := hstep
    simp [Host.Core.run, hcore] at h
  | refused r =>
    have hcore : Sys2Proof.core.step s = .refused r := hstep
    simp [Host.Core.run, hcore] at h

/-- A run that takes inputs other than bytes of device memory, one by one, leaves device memory. -/
theorem run_between {between rest : List HostInput} {s u : State} (hdone : s.seq.phase = .done)
    (hp : s.pending = between ++ rest) (hbetween : ∀ x ∈ between, ∀ a bytes, x ≠ .deviceWrite a bytes)
    (hrun : Sys2Proof.core.run between.length s = .next u) :
    u.seq.phase = .done ∧ u.pending = rest ∧ u.dmem = s.dmem := by
  induction between generalizing s with
  | nil =>
    obtain rfl : s = u := Host.Outcome.next.inj hrun
    exact ⟨hdone, hp, rfl⟩
  | cons x between ih =>
    obtain ⟨hx, htail⟩ := List.forall_mem_cons.mp hbetween
    obtain ⟨t, hstep, hrest⟩ := run_succ_cases hrun
    obtain ⟨hdone', hp'⟩ := step_takes_input hdone hp hstep
    obtain ⟨hphase, hqueue, hdmem⟩ := ih hdone' hp' htail hrest
    exact ⟨hphase, hqueue, hdmem.trans (step_keeps_dmem hp hx hstep)⟩

/-- CRC32.DEV with a conforming device and the host's ACK taken. -/
theorem exec_crc32Dev_conforming {start count : Word} {s : State} {ws : List Bool} (ha : Admitted start count s)
    (hconf : DeviceConforms Config.params start count s) (hwrites : s.link.writes = true :: true :: ws) :
    ∃ t, exec (.crc32Dev start count) s = .next t ∧
      t.result = some (.ok (.u32 (crc32 Config.params (s.dmem.readRange start.toNat count.toNat)))) := by
  obtain ⟨b, hresult, hack⟩ := exchange_conforming hconf
  obtain rfl : b = true := hack ws hwrites
  exact ⟨_, exec_crc32Dev_of_admitted ha, hresult⟩

/-- Settles O51: the exchange with a conforming device; and the bytes of an earlier command, which the inputs that come between
leave in device memory. -/
theorem conformingDeviceAnswers : Obligations.ConformingDeviceAnswers := by
  refine ⟨fun start count s ws ha hconf hwrites => exec_crc32Dev_conforming ha hconf hwrites,
    fun first start count data i between rest s u ws hdone hwf hin hp hbetween hrun hstart hi ha hconf hwrites => ?_⟩
  have hwrite := step_of_deviceWrite hdone hp
  rw [if_pos hin] at hwrite
  rw [run_succ_of_next between.length hwrite] at hrun
  obtain ⟨hphase, hqueue, hdmem⟩ := run_between (by exact hdone) rfl hbetween hrun
  obtain ⟨t, hexec, hresult⟩ := exec_crc32Dev_conforming (s := u.setPending rest) ha hconf hwrites
  refine ⟨t, (step_of_instr hphase hqueue (decode_crc32Packet start count)).trans hexec, ?_⟩
  rw [hresult, State.setPending_dmem, hdmem, hstart,
    Memory.readRange_writeBytes_part (Memory.rising_of_wf s.dmem hwf) first.toNat hi]

end Sys2Proof.Machine
end
